-- ==== Sys2Proof/Word.lean ====
section
/-! DEFINITION. The word and byte types of the wenzhen hash core (00_scope.md R6, R8). -/

namespace Sys2Proof

/-- A 32-bit unsigned word, the `u32` of 00_scope.md R8. Its `+` is modulo 2^32 (R9). -/
abbrev Word := BitVec 32

/-- An 8-bit message byte or digest character (20_memory.md R51, R55). -/
abbrev Byte := BitVec 8

end Sys2Proof
end

