-- ==== Sys2Proof/Config.lean ====
section
/-! DEFINITION. The parameters of a core (00_scope.md R6, R7). -/

namespace Sys2Proof

/-- The parameters an instance is built with, 00_scope.md R7: "Each takes the value given here or is an argument of the
model". They are carried in the state as data that no step writes, so that a claim holds for every choice and a run can
be evaluated at any one choice. `T_PUSH` and `T_BLOCK` are timing only and enter no rule's value (R7, R263). -/
structure Params where
  /-- `H_INIT[0..7]`, OPEN in the spec (R7, 92_eei_decisions.md D3). -/
  hInit : Vector Word 8
  /-- `LEN_GUARD`, read by the host as `STATUS.LGUARD` (R7, R29, R104). -/
  lenGuard : Bool
  /-- `CORE_BASE`, OPEN in the spec: where a platform puts the optional memory map (R7, 20_memory.md R58). -/
  coreBase : Nat
deriving DecidableEq, Repr

/-- `H_INIT` of the instance that `State.reset` stands for. OPEN in the spec (R7), so it has no body here and no proof can
see its value (log entry 1). -/
opaque Config.hInit : Vector Word 8

/-- `CORE_BASE` of the instance that `State.reset` stands for. OPEN in the spec (R7), so it has no body (log entry 1). -/
opaque Config.coreBase : Nat

/-- The word that register cell `n` stores while no rule has written it, numbered through H (0 to 7), a..h (8 to 15) and W (16 to
79). The spec gives no such word and 93_implementation_defined.md X2 says never to choose one, so it has no body (log entry 2). -/
opaque Config.unwrittenWord : Nat → Word

/-- The word from which read number `n` before the first reset takes the fields of RSP or STATUS that hold no value then
(70_reset_and_hazards.md R251). It has no body: a free value (log entry 4). -/
opaque Config.undefinedRead : Nat → Word

/-- `LEN_GUARD`, whose value in R7 is `false`. -/
def Config.lenGuard : Bool := false

/-- The parameters of the instance that `State.reset` stands for. -/
def Config.params : Params :=
  { hInit := Config.hInit, lenGuard := Config.lenGuard, coreBase := Config.coreBase }

end Sys2Proof
end

