-- ==== Sys2Proof/Syntax.lean ====
section
/-! DEFINITION. The six commands (30_encoding.md R71, R72; opcode_table.json) and the assembler's lines (R76, R77). -/

namespace Sys2Proof

/-- One constructor per row of the opcode table. The operands have the widths of R72, so every term is a command that some
word spells. -/
inductive Instr where
  /-- NOP, OPC 0x0 (45_control.md R200). -/
  | nop
  /-- INIT, OPC 0x1 (45_control.md R202). -/
  | init
  /-- PUSH, OPC 0x2: `ARG[7:0]` is the message byte (40_padder.md R102). -/
  | push (byte : Byte)
  /-- FINAL, OPC 0x3 (40_padder.md R110). -/
  | final
  /-- RDHEX, OPC 0x4: `ARG[5:0]` is the character index (44_formatter.md R192). -/
  | rdhex (idx : BitVec 6)
  /-- CLRERR, OPC 0x5 (45_control.md R204). -/
  | clrerr
deriving DecidableEq, Repr

/-- A line of the assembler (R76, R77): a command with its operand as the number that was written, a raw word, or a
pseudo-instruction. Text operands are lists of characters. -/
inductive AsmLine where
  | nop
  | init
  | push (b : Nat)
  | final
  | rdhex (i : Nat)
  | clrerr
  /-- `.word 0xXXXXXXXX` (R76). -/
  | word (w : Nat)
  /-- `PUSHS "text"` (R77). -/
  | pushs (text : List Char)
  /-- `PUSHB b0, b1, ...` (R77). -/
  | pushb (bs : List Nat)
  /-- `RDALL` (R77). -/
  | rdall
  /-- `DIGEST "text"` (R77). -/
  | digest (text : List Char)
deriving DecidableEq, Repr

end Sys2Proof
end

