-- ==== Sys2Proof/WellFormed.lean ====
section
/-! DEFINITION. What is well formed: the operands of an assembler line (30_encoding.md R76) and a memory-mapped access
(20_memory.md R58). An `Instr` needs no check: its operand types are the field widths of R72, so each term is well formed. -/

namespace Sys2Proof

/-- R76: "PUSH b: b is a byte value 0..255", "RDHEX i: i is 0..63", and a raw word has 32 bits. "An operand out of range
is an assembly error." -/
def AsmLine.wf : AsmLine → Bool
  | .nop | .init | .final | .clrerr | .rdall | .pushs _ | .digest _ => true
  | .push b => decide (b < 256)
  | .rdhex i => decide (i < 64)
  | .word w => decide (w < 4294967296)
  | .pushb bs => bs.all fun b => decide (b < 256)

/-- R58: "Only naturally aligned 32-bit accesses are defined." The access is at platform address `addr` and is `size` bytes wide:
four bytes, at an address that is a multiple of 4, and on a register, which lie at multiples of 4 from the platform's `base`. With
a `base` that is no multiple of 4 no access meets this (log entry 7). -/
def busAccessWf (base addr size : Nat) : Bool := size == 4 && addr % 4 == 0 && (addr - base) % 4 == 0

end Sys2Proof
end

