-- ==== Sys2Proof/Decode.lean ====
section
/-! DEFINITION. Decoding a command word, total over all 2^32 words (30_encoding.md R70 to R75), and the encoder. -/

namespace Sys2Proof

/-- `OPC`, bits [3:0] (R70). -/
def opcOf (w : Word) : BitVec 4 := w.extractLsb' 0 4

/-- `ARG`, bits [15:8] (R70). -/
def argOf (w : Word) : Byte := w.extractLsb' 8 8

/-- The index field of RDHEX, bits [13:8] (R72). -/
def idxOf (w : Word) : BitVec 6 := w.extractLsb' 8 6

/-- The must-be-zero mask of an opcode 0x0 to 0x5 (R73). Opcodes 0x6 to 0xF have none: R74 looks at no other bit. -/
def mustBeZero (opc : BitVec 4) : Word :=
  match opc.toNat with
  | 0 => 0xFFFFFFF0#32
  | 1 => 0xFFFFFFF0#32
  | 2 => 0xFFFF00F0#32
  | 3 => 0xFFFFFFF0#32
  | 4 => 0xFFFFC0F0#32
  | 5 => 0xFFFFFFF0#32
  | _ => 0#32

/-- What a word spells (R75): a command, `Illegal`, or `Reserved`. -/
inductive Decoded where
  | cmd (i : Instr)
  /-- OPC 0x6 to 0xF: cause ILLEGAL_OPC (R74). -/
  | illegal
  /-- OPC 0x0 to 0x5 with a must-be-zero bit set: cause RSVD_BITS (R73). -/
  | reserved
deriving DecidableEq, Repr

/-- The decode function of R75, with its order of checks. -/
def decode (w : Word) : Decoded :=
  if 6 ≤ (opcOf w).toNat then .illegal
  else if w &&& mustBeZero (opcOf w) ≠ 0#32 then .reserved
  else
    match (opcOf w).toNat with
    | 0 => .cmd .nop
    | 1 => .cmd .init
    | 2 => .cmd (.push (argOf w))
    | 3 => .cmd .final
    | 4 => .cmd (.rdhex (idxOf w))
    | 5 => .cmd .clrerr
    | _ => .illegal

/-- A command word from its opcode and argument, with RSV0 and RSV1 zero (R70). -/
def cmdWord (arg : Byte) (opc : BitVec 4) : Word := 0#16 ++ arg ++ 0#4 ++ opc

/-- The word of a command (R71, R72). -/
def encode : Instr → Word
  | .nop => cmdWord 0#8 0x0#4
  | .init => cmdWord 0#8 0x1#4
  | .push b => cmdWord b 0x2#4
  | .final => cmdWord 0#8 0x3#4
  | .rdhex i => cmdWord (i.setWidth 8) 0x4#4
  | .clrerr => cmdWord 0#8 0x5#4

/-- The `match` column of R73 and opcode_table.json. -/
def tableMatch : Instr → Word
  | .nop => 0x00000000#32
  | .init => 0x00000001#32
  | .push _ => 0x00000002#32
  | .final => 0x00000003#32
  | .rdhex _ => 0x00000004#32
  | .clrerr => 0x00000005#32

/-- The `mask` column of opcode_table.json: the must-be-zero mask and the opcode bits (R73). -/
def tableMask : Instr → Word
  | .nop => 0xFFFFFFFF#32
  | .init => 0xFFFFFFFF#32
  | .push _ => 0xFFFF00FF#32
  | .final => 0xFFFFFFFF#32
  | .rdhex _ => 0xFFFFC0FF#32
  | .clrerr => 0xFFFFFFFF#32

/-- The command in a decode result, if there is one. -/
def Decoded.instr? : Decoded → Option Instr
  | .cmd i => some i
  | .illegal => none
  | .reserved => none

/-- The instruction the decoder reads from an opcode-table word. A command is one 32-bit word on the command port (R70), so
there is no byte order to choose. -/
def decodeTableWord (nbits w : Nat) : Option Instr :=
  (decode (BitVec.ofNat 32 (w % 2 ^ nbits))).instr?

end Sys2Proof
end

