-- ==== Sys2Proof/Machine/State.lean ====
section
/-! DEFINITION. The state of the core, everything 10_state.md gives it, and the state after reset (R32). -/

namespace Sys2Proof.Machine

/-- The control state FSM (10_state.md R26). Codes 4 to 7 are reserved and unreachable; 93 X7 lets a model exclude them
(log entry 12). -/
inductive Fsm where
  | idle
  | absorb
  | busy
  | done
deriving DecidableEq, Repr

/-- The sequencer step SUB (10_state.md R27). -/
inductive Sub where
  | load
  | round
  | fold
deriving DecidableEq, Repr

/-- The return state RET (10_state.md R27). -/
inductive Ret where
  | absorb
  | done
deriving DecidableEq, Repr

/-- The cause codes of 60_exceptions.md R221. Codes 5 to 15 are never produced. -/
inductive Cause where
  | none
  | illegalOpc
  | rsvdBits
  | seq
  | tooLarge
deriving DecidableEq, Repr

/-- A register with R33's mark "unwritten" (10_state.md R33). It always stores a word, and a read gives that word; `written` says
whether a rule has written it, and nothing chooses the word of an unwritten one (log entry 2). -/
structure Latch (α : Type) where
  val : α
  written : Bool
deriving DecidableEq, Repr

/-- The working variables a..h (10_state.md R22). -/
structure Vars where
  a : Word
  b : Word
  c : Word
  d : Word
  e : Word
  f : Word
  g : Word
  h : Word
deriving DecidableEq, Repr

/-- A byte store: address and byte pairs, addresses strictly rising. An unlisted address is unwritten (10_state.md R33). The
core's one such store is BUF, addresses 0 to 63 (20_memory.md R50). -/
abbrev Memory := List Host.Cell

/-- The sequencer state (10_state.md R27). -/
structure Seq where
  sub : Sub
  tcnt : BitVec 6
  pend2 : Bool
  ret : Ret
deriving DecidableEq, Repr

/-- The error record: ERR, ECODE and EOVF (10_state.md R29). -/
structure ErrRec where
  err : Bool
  ecode : Cause
  eovf : Bool
deriving DecidableEq, Repr

/-- The values on the core's input ports at one rising edge of `clk` (30_encoding.md R79). -/
structure Pins where
  rstN : Bool
  cmdValid : Bool
  cmdWord : Word
deriving DecidableEq, Repr

/-- What the host does next. The spec leaves the host free (R61, R261, X14), so a run is given a list of these. -/
inductive HostAct where
  /-- Drive the ports to these values for exactly one edge. An unaccepted command may so be changed or withdrawn (R261). -/
  | drive (p : Pins)
  /-- Present a command and keep it stable until it is accepted (R81, R261). -/
  | send (w : Word)
  /-- A memory-mapped read of `size` bytes at a platform address (R58). -/
  | busRead (addr size : Nat)
  /-- A memory-mapped write of `size` bytes at a platform address (R58). A write to CMD stalls until it is accepted. -/
  | busWrite (addr size : Nat) (data : Word)
deriving DecidableEq, Repr

/-- Why a step ends in a fault. -/
inductive Fault where
  /-- A byte of BUF that no rule has written was read: the model fault of 10_state.md R33. Raised by the sequencer's LOAD.
  Safe: it marks "a modelling error, not a chip behaviour", and no run from a reset reaches it. -/
  | unwritten
deriving DecidableEq, Repr

/-- Why a step is refused. -/
inductive Refusal where
  /-- No meaning yet for the named command. Raised by no arm of `exec`. Safe. -/
  | notModelled (mnemonic : String)
  /-- A command before the first reset (70_reset_and_hazards.md R251, 93 X10). Raised by the command port. Safe. -/
  | beforeReset
  /-- A memory-mapped access that is not a naturally aligned 32-bit one (20_memory.md R58, 93 X9). Raised by the bus. Safe. -/
  | busAccess
  /-- A bus access outside the core's sixteen bytes, which is the platform's (20_memory.md R58). Raised by the bus. Safe. -/
  | busOutside
deriving DecidableEq, Repr

/-- The whole state: the fields of 10_state.md R21 to R30, the parameters of R7, and the host's side. -/
structure State where
  /-- H_INIT, LEN_GUARD (LGUARD) and CORE_BASE: constant (R7, R29). -/
  params : Params
  /-- Whether a reset has been applied since power-on (R251). -/
  live : Bool
  /-- FSM (R26). -/
  fsm : Fsm
  /-- SUB, TCNT, PEND2 and RET (R27). -/
  seq : Seq
  /-- LEN (R25). -/
  len : BitVec 29
  /-- H[0..7] (R21). INIT and FOLD write all eight at once, so one mark serves the eight (log entry 2). -/
  h : Latch (Vector Word 8)
  /-- a..h (R22). LOAD and ROUND write all eight at once, so one mark serves the eight (log entry 2). -/
  vars : Latch Vars
  /-- W[0..63] (R23). -/
  w : Vector (Latch Word) 64
  /-- BUF[0..63] (R24). -/
  buf : Memory
  /-- ERR, ECODE and EOVF (R29). -/
  errs : ErrRec
  /-- RSP (R30), the port `rsp_word`. -/
  rsp : Word
  /-- The port `rsp_valid`: whether the last edge wrote a response (R79). -/
  rspValid : Bool
  /-- The MODEL's own field: what the host does at the coming edges. -/
  host : List HostAct
  /-- The MODEL's own field: what the last memory-mapped read returned to the host (R58). -/
  busData : Word
  /-- The MODEL's own field: how many memory-mapped reads have been served before the first reset, so that each gets a free value
  of its own (R251; log entry 4). -/
  undefReads : Nat
deriving DecidableEq, Repr

/-- An unwritten register word (R33): its mark is false, and its word is not chosen (log entry 2). -/
def unwrittenLatch (n : Nat) : Latch Word := ⟨Config.unwrittenWord n, false⟩

/-- W with no word written (R33, R146). -/
def unwrittenSchedule : Vector (Latch Word) 64 := ⟨((List.range 64).map fun t => unwrittenLatch (16 + t)).toArray, rfl⟩

/-- H with no word written (R33). -/
def unwrittenHash : Latch (Vector Word 8) :=
  ⟨⟨((List.range 8).map Config.unwrittenWord).toArray, rfl⟩, false⟩

/-- a..h with no variable written (R33). -/
def unwrittenVars : Latch Vars :=
  ⟨{ a := Config.unwrittenWord 8, b := Config.unwrittenWord 9, c := Config.unwrittenWord 10, d := Config.unwrittenWord 11,
     e := Config.unwrittenWord 12, f := Config.unwrittenWord 13, g := Config.unwrittenWord 14,
     h := Config.unwrittenWord 15 }, false⟩

/-- The core right after reset, for an instance with parameters `p`: 10_state.md R32. H, a..h, W and BUF hold no value
(R33), so their marks are false and no byte is listed; what the unwritten registers store is log entry 2, and the unread SUB
and RET are log entry 3. -/
def State.resetOf (p : Params) : State where
  params := p
  live := true
  fsm := .idle
  seq := { sub := .load, tcnt := 0#6, pend2 := false, ret := .absorb }
  len := 0#29
  h := unwrittenHash
  vars := unwrittenVars
  w := unwrittenSchedule
  buf := []
  errs := { err := false, ecode := .none, eovf := false }
  rsp := 0#32
  rspValid := false
  host := []
  busData := 0#32
  undefReads := 0

/-- The machine right after reset (R32, R250), for the parameters of Config. -/
def State.reset : State := State.resetOf Config.params

/-- The machine at power-on, before the first reset (R251). No port or register has a defined value: the fields are
placeholders that `live = false` keeps every command, output port and memory-mapped read away from (log entry 4). -/
def State.powerOn (p : Params) (host : List HostAct) : State :=
  { State.resetOf p with live := false, host := host }

end Sys2Proof.Machine
end

