-- ==== Sys2Proof/Machine/Flags.lean ====
section
/-! DEFINITION. The status word, the response word and the error record (30_encoding.md R80, R82; 60_exceptions.md R221,
R224). -/

namespace Sys2Proof.Machine

/-- The 3-bit code of FSM (10_state.md R26). -/
def Fsm.code : Fsm → BitVec 3
  | .idle => 0#3
  | .absorb => 1#3
  | .busy => 2#3
  | .done => 3#3

/-- The FSM value the sequencer returns to (10_state.md R27). -/
def Ret.fsm : Ret → Fsm
  | .absorb => .absorb
  | .done => .done

/-- The 4-bit value of ECODE (60_exceptions.md R221). -/
def Cause.code : Cause → BitVec 4
  | .none => 0#4
  | .illegalOpc => 1#4
  | .rsvdBits => 2#4
  | .seq => 3#4
  | .tooLarge => 4#4

/-- Recording an error (60_exceptions.md R224): the first cause is kept, a later one sets EOVF. -/
def ErrRec.raise (c : Cause) (e : ErrRec) : ErrRec :=
  if e.err then { e with eovf := true } else { e with err := true, ecode := c }

/-- The error record CLRERR leaves (45_control.md R204). -/
def ErrRec.clear : ErrRec := { err := false, ecode := .none, eovf := false }

/-- The status word (30_encoding.md R82): zeros [15:10], LGUARD [9], EOVF [8], ECODE [7:4], ERR [3], FSM [2:0]. -/
def statusWord (s : State) : BitVec 16 :=
  0#6 ++ BitVec.ofBool s.params.lenGuard ++ BitVec.ofBool s.errs.eovf ++ s.errs.ecode.code ++
    BitVec.ofBool s.errs.err ++ s.fsm.code

/-- A response word (30_encoding.md R80): STAT [31:16], zeros [15:8], DATA [7:0]. -/
def responseWord (stat : BitVec 16) (data : Byte) : Word := stat ++ 0#8 ++ data

end Sys2Proof.Machine
end

