-- ==== Sys2Proof/Machine/Operands.lean ====
section
/-! DEFINITION. The operand forms: the fill level, the length field, the padding bytes, and the digit RDHEX selects
(40_padder.md R102, R109 to R112; 44_formatter.md R190, R191). -/

namespace Sys2Proof.Machine

/-- The buffer fill level `LEN[5:0]` (10_state.md R25). -/
def fillLevel (len : BitVec 29) : BitVec 6 := len.extractLsb' 0 6

/-- `B32 = LEN ‖ 0b000` (40_padder.md R109). -/
def bitLength32 (len : BitVec 29) : Word := len ++ 0#3

/-- The eight bytes of a 32-bit bit length, little-endian and repeated (40_padder.md R108):
`LF[i] = (B32 >> ((i*8) mod 32)) & 0xFF`. -/
def lengthBytes (b32 : Word) : List Byte :=
  [b32.extractLsb' 0 8, b32.extractLsb' 8 8, b32.extractLsb' 16 8, b32.extractLsb' 24 8,
   b32.extractLsb' 0 8, b32.extractLsb' 8 8, b32.extractLsb' 16 8, b32.extractLsb' 24 8]

/-- The length field FINAL builds from the counter (40_padder.md R109). -/
def lengthFieldOf (len : BitVec 29) : List Byte := lengthBytes (bitLength32 len)

/-- The padding marker (40_padder.md R106). -/
def marker : Byte := 0x80#8

/-- What FINAL writes from `BUF[f]` on when one closing block is enough, f ≤ 55 (40_padder.md R110, R111): the marker,
zeros up to byte 55, and the length field. -/
def closingTail (f : Nat) (len : BitVec 29) : List Byte :=
  marker :: (List.replicate (55 - f) 0x00#8 ++ lengthFieldOf len)

/-- What FINAL writes from `BUF[f]` on when a second closing block follows, f ≥ 56 (40_padder.md R110, R112): the marker and
zeros up to byte 63. -/
def markerTail (f : Nat) : List Byte := marker :: List.replicate (63 - f) 0x00#8

/-- The second closing block (40_padder.md R112): 56 zeros and the length field. -/
def secondBlock (len : BitVec 29) : List Byte := List.replicate 56 0x00#8 ++ lengthFieldOf len

/-- The word index `j = idx div 8` of a character (44_formatter.md R190). -/
def wordIndex (idx : BitVec 6) : BitVec 3 := idx.extractLsb' 3 3

/-- The digit position `p = idx mod 8` within the word, 0 the most significant (44_formatter.md R190). -/
def digitIndex (idx : BitVec 6) : BitVec 3 := idx.extractLsb' 0 3

/-- `H[j][31 - 4p : 28 - 4p]` (44_formatter.md R190). -/
def nibble (x : Word) (p : BitVec 3) : BitVec 4 := x.extractLsb' (28 - 4 * p.toNat) 4

/-- The ASCII code of a digit (44_formatter.md R191). -/
def hexchar (n : BitVec 4) : Byte :=
  if n.toNat < 10 then 0x30#8 + n.setWidth 8 else 0x57#8 + n.setWidth 8

/-- Character `idx` of the rendering of a hash state (44_formatter.md R190). -/
def hexAt (h : Vector Word 8) (idx : BitVec 6) : Byte :=
  hexchar (nibble (h[(wordIndex idx).toNat]'(wordIndex idx).isLt) (digitIndex idx))

end Sys2Proof.Machine
end

