-- ==== Sys2Proof/Machine/Ops.lean ====
section
/-! DEFINITION. The named operations on registers, on the block buffer and on the error record that the meanings share. -/

namespace Sys2Proof.Machine

/-- The outcome of a step of the core. -/
abbrev Result := Host.Outcome State Fault Refusal

/-- Reading a register: the word it stores, written or not. A register read never stops the machine (log entry 2). -/
def Latch.read {α : Type} (l : Latch α) : α := l.val

/-- What a register holds by 10_state.md R33: its word once a rule has written it, and no value before. No command reads through
this; statements say with it which registers have been written. -/
def Latch.get? {α : Type} (l : Latch α) : Option α := if l.written then some l.val else none

/-- A register just written. -/
def Latch.put {α : Type} (x : α) : Latch α := ⟨x, true⟩

/-- Reading `W[t]` (10_state.md R23). -/
def schedWord (w : Vector (Latch Word) 64) (t : BitVec 6) : Word := (w[t.toNat]'t.isLt).read

/-- What `W[t]` holds by 10_state.md R33, as `Latch.get?`. -/
def schedRead (w : Vector (Latch Word) 64) (t : BitVec 6) : Option Word := (w[t.toNat]'t.isLt).get?

/-- Writing `W[t]` (10_state.md R23). -/
def schedWrite (w : Vector (Latch Word) 64) (t : BitVec 6) (x : Word) : Vector (Latch Word) 64 :=
  w.set t.toNat (Latch.put x) t.isLt

/-- Reading one byte; `none` is an unwritten byte (10_state.md R33). -/
def Memory.read : Memory → Nat → Option Byte
  | [], _ => none
  | (k, x) :: m, a => if k = a then some x else Memory.read m a

/-- Writing one byte, keeping the addresses strictly rising. -/
def Memory.write : Memory → Nat → Byte → Memory
  | [], a, b => [(a, b)]
  | (k, x) :: m, a, b =>
    if a < k then (a, b) :: (k, x) :: m
    else if a = k then (a, b) :: m
    else (k, x) :: Memory.write m a b

/-- Writing bytes at consecutive addresses from `a`. -/
def Memory.writeBytes : Memory → Nat → List Byte → Memory
  | m, _, [] => m
  | m, a, b :: bs => Memory.writeBytes (m.write a b) (a + 1) bs

/-- Reading `n` bytes at consecutive addresses from `a`, or nothing if one of them is unwritten. -/
def Memory.readBytes (m : Memory) : Nat → Nat → Option (List Byte)
  | 0, _ => some []
  | n + 1, a =>
    match m.read a, Memory.readBytes m n (a + 1) with
    | some b, some bs => some (b :: bs)
    | _, _ => none

/-- The canonical form of a store: addresses strictly rising. -/
def Memory.sorted : Memory → Bool
  | [] => true
  | (k, _) :: m => m.all (fun c => decide (k < c.1)) && Memory.sorted m

/-- The canonical form of BUF: addresses strictly rising and below 64. An unlisted byte reads as no byte, so no entry can
equal what an unlisted address reads as. -/
def Memory.wf (m : Memory) : Bool := m.sorted && m.all fun c => decide (c.1 < 64)

/-- `respond(data8)` (00_scope.md R10, 30_encoding.md R80): RSP gets DATA and the status sampled now, after the command's
effects, and `rsp_valid` is 1 until the next edge (R81; log entry 10). -/
def respond (data : Byte) (s : State) : State :=
  { s with rsp := responseWord (statusWord s) data, rspValid := true }

/-- `raise Error(code)` (60_exceptions.md R224): the error record and nothing else. -/
def raiseError (c : Cause) (s : State) : State := { s with errs := s.errs.raise c }

/-- A command that raises an error (60_exceptions.md R224): it records the error, responds with DATA = 0x00 and changes
nothing else. This is the core's whole exception entry: it saves no pc, changes no mode and enters no handler (R225), so
there is no return from one either (R226). -/
def commandError (c : Cause) (s : State) : Result := .next (respond 0x00#8 (raiseError c s))

/-- What stands between a command and its meaning. Before the first reset the model refuses it (70_reset_and_hazards.md
R251). While BUSY it is held: not accepted, no effect, no error (60_exceptions.md R222, 70_reset_and_hazards.md R260). The
answer for a held command is the unchanged state (log entry 9). -/
def accepting (s : State) (o : Result) : Result :=
  if s.live then (if s.fsm = .busy then .next s else o) else .refused .beforeReset

/-- Starting a compression (40_padder.md R103, R111, R112): FSM goes to BUSY and the sequencer to LOAD. The response comes at
the end (30_encoding.md R81). -/
def startBlock (pend2 : Bool) (ret : Ret) (s : State) : State :=
  { s with
    fsm := .busy
    seq := { s.seq with sub := .load, pend2 := pend2, ret := ret }
    rspValid := false }

/-- The rising edge with `rst_n = 0` (70_reset_and_hazards.md R250, R252): the reset values, whatever the core was doing. The
parameters are constant, the host's side is not the core's, and the model's count of undefined reads goes on. -/
def resetEdge (s : State) : State :=
  { State.resetOf s.params with host := s.host, busData := s.busData, undefReads := s.undefReads }

end Sys2Proof.Machine
end

