-- ==== Sys2Proof/Machine/Schedule.lean ====
section
/-! DEFINITION. The message-schedule expander (42_schedule.md R140 to R146; 20_memory.md R52). -/

namespace Sys2Proof.Machine

/-- ROTR (R140): `((x >> n) | (x << (32 - n))) mod 2^32`, used with n in 1..31. -/
def rotr (x : Word) (n : Nat) : Word := (x >>> n) ||| (x <<< (32 - n))

/-- SHR (R141): logical, zeros enter at bit 31. -/
def shr (x : Word) (n : Nat) : Word := x >>> n

/-- The two rotations and the shift of s0 (R142), kept as named constants (91_not_in_source.md N12). -/
def s0Amounts : Nat × Nat × Nat := (7, 18, 3)

/-- The two rotations and the shift of s1 (R143). -/
def s1Amounts : Nat × Nat × Nat := (17, 19, 10)

/-- s0 (R142). -/
def smallSigma0 (x : Word) : Word :=
  rotr x s0Amounts.1 ^^^ rotr x s0Amounts.2.1 ^^^ shr x s0Amounts.2.2

/-- s1 (R143). -/
def smallSigma1 (x : Word) : Word :=
  rotr x s1Amounts.1 ^^^ rotr x s1Amounts.2.1 ^^^ shr x s1Amounts.2.2

/-- Big-endian assembly of one word from four bytes, the most significant first (20_memory.md R52). -/
def wordBe (b0 b1 b2 b3 : Byte) : Word := b0 ++ b1 ++ b2 ++ b3

/-- The words of a byte sequence, four bytes each in order: word t is bytes 4t to 4t+3 (20_memory.md R52, R144). -/
def wordsOf : List Byte → List Word
  | b0 :: b1 :: b2 :: b3 :: bs => wordBe b0 b1 b2 b3 :: wordsOf bs
  | _ => []

/-- The recurrence of R145: `W[t-16] + s0(W[t-15]) + W[t-7] + s1(W[t-2])`, each + modulo 2^32. -/
def expandWord (w16 w15 w7 w2 : Word) : Word := w16 + smallSigma0 w15 + w7 + smallSigma1 w2

/-- Writing consecutive schedule words from `W[t]` (R144). -/
def schedWriteWords (w : Vector (Latch Word) 64) (t : BitVec 6) : List Word → Vector (Latch Word) 64
  | [] => w
  | x :: xs => schedWriteWords (schedWrite w t x) (t + 1#6) xs

/-- The schedule in round t after the expander's part of the round (R172): `W[t]` is computed when t ≥ 16 and is already
there when t < 16. -/
def schedAdvance (w : Vector (Latch Word) 64) (t : BitVec 6) : Vector (Latch Word) 64 :=
  if t.toNat < 16 then w
  else
    schedWrite w t (expandWord (schedWord w (t - 16#6)) (schedWord w (t - 15#6)) (schedWord w (t - 7#6))
      (schedWord w (t - 2#6)))

end Sys2Proof.Machine
end

