-- ==== Sys2Proof/Machine/Compression.lean ====
section
/-! DEFINITION. The round functions, the round and the fold (43_compression.md R160 to R173). -/

namespace Sys2Proof.Machine

/-- The rotations of S1 (R160), kept as named constants (91_not_in_source.md N12). -/
def bigS1Amounts : Nat × Nat × Nat := (6, 11, 25)

/-- The rotations of S0 (R161). -/
def bigS0Amounts : Nat × Nat × Nat := (2, 13, 22)

/-- S1 (R160). -/
def bigSigma1 (e : Word) : Word :=
  rotr e bigS1Amounts.1 ^^^ rotr e bigS1Amounts.2.1 ^^^ rotr e bigS1Amounts.2.2

/-- S0 (R161). -/
def bigSigma0 (a : Word) : Word :=
  rotr a bigS0Amounts.1 ^^^ rotr a bigS0Amounts.2.1 ^^^ rotr a bigS0Amounts.2.2

/-- Ch (R162). -/
def choice (e f g : Word) : Word := (e &&& f) ^^^ (~~~e &&& g)

/-- Maj (R163). -/
def majority (a b c : Word) : Word := (a &&& b) ^^^ (a &&& c) ^^^ (b &&& c)

/-- T1 of a round with constant `k` and schedule word `x` (R164). -/
def temp1 (k x : Word) (v : Vars) : Word := v.h + bigSigma1 v.e + choice v.e v.f v.g + k + x

/-- T2 of a round (R165). -/
def temp2 (v : Vars) : Word := bigSigma0 v.a + majority v.a v.b v.c

/-- One round with constant `k` and schedule word `x`; every right side reads the values from before the round (R170). -/
def roundWith (k x : Word) (v : Vars) : Vars :=
  { a := temp1 k x v + temp2 v
    b := v.a
    c := v.b
    d := v.c
    e := v.d + temp1 k x v
    f := v.e
    g := v.f
    h := v.g }

/-- Round t with schedule word `x = W[t]`; it reads `K[t]` (R170, R130). -/
def hashRound (t : BitVec 6) (x : Word) (v : Vars) : Vars := roundWith (Rom.k t) x v

/-- LOAD's copy of H into the working variables (R171). -/
def varsOfHash (h : Vector Word 8) : Vars :=
  { a := h[0], b := h[1], c := h[2], d := h[3], e := h[4], f := h[5], g := h[6], h := h[7] }

/-- FOLD: `H[i] + v[i]`, each + modulo 2^32 (R173). -/
def foldHash (h : Vector Word 8) (v : Vars) : Vector Word 8 :=
  #v[h[0] + v.a, h[1] + v.b, h[2] + v.c, h[3] + v.d, h[4] + v.e, h[5] + v.f, h[6] + v.g, h[7] + v.h]

end Sys2Proof.Machine
end

