-- ==== Sys2Proof/Machine/Sequencer.lean ====
section
/-! DEFINITION. The sequencer, one step at a time while FSM = BUSY (43_compression.md R171 to R175). -/

namespace Sys2Proof.Machine

/-- LOAD (R171): a..h from H, W[0..15] from BUF, TCNT to 0, on to ROUND. A byte of BUF that nothing has written has no value,
and reading it is the model fault of 10_state.md R33. -/
def seqLoad (s : State) : Result :=
  match s.buf.readBytes 64 0 with
  | some bytes =>
    .next { s with
      vars := Latch.put (varsOfHash s.h.read)
      w := schedWriteWords s.w 0#6 (wordsOf bytes)
      seq := { s.seq with sub := .round, tcnt := 0#6 }
      rspValid := false }
  | none => .fault .unwritten

/-- Where the sequencer goes after round t (R172): TCNT does not wrap into a 65th round (10_state.md R27). -/
def afterRound (q : Seq) : Seq :=
  if q.tcnt = 63#6 then { q with sub := .fold } else { q with tcnt := q.tcnt + 1#6 }

/-- The state after ROUND (R172), with t = TCNT: the expander's part, then round t with `W[t]`. -/
def roundState (s : State) : State :=
  { s with
    w := schedAdvance s.w s.seq.tcnt
    vars := Latch.put (hashRound s.seq.tcnt (schedWord (schedAdvance s.w s.seq.tcnt) s.seq.tcnt) s.vars.read)
    seq := afterRound s.seq
    rspValid := false }

/-- FOLD with PEND2 = 1 (R174, 40_padder.md R112): the second closing block is built in BUF and the sequencer goes back to
LOAD, FSM still BUSY. -/
def nextClosingBlock (s : State) : State :=
  { s with
    buf := s.buf.writeBytes 0 (secondBlock s.len)
    seq := { s.seq with pend2 := false, sub := .load }
    rspValid := false }

/-- The end of a command that compressed (R174): FSM takes RET and the response is written. -/
def finishCommand (s : State) : State := respond 0x00#8 { s with fsm := s.seq.ret.fsm }

/-- FOLD's addition (R173). W is discarded (10_state.md R23, 42_schedule.md R146; log entry 8). -/
def foldState (s : State) : State :=
  { s with h := Latch.put (foldHash s.h.read s.vars.read), w := unwrittenSchedule }

/-- FOLD and end of block (R173, R174). -/
def endBlock (s : State) : State :=
  if s.seq.pend2 then nextClosingBlock (foldState s) else finishCommand (foldState s)

/-- One sequencer step (R171 to R174). The path is fixed and reads no data to choose it (R175). -/
def tick (s : State) : Result :=
  match s.seq.sub with
  | .load => seqLoad s
  | .round => .next (roundState s)
  | .fold => .next (endBlock s)

end Sys2Proof.Machine
end

