-- ==== Sys2Proof/Machine/Control.lean ====
section
/-! DEFINITION. The control family: NOP, INIT, CLRERR (45_control.md R200 to R204). -/

namespace Sys2Proof.Machine

/-- NOP (R200): responds with the status; no other effect. -/
def execNop (s : State) : Result := accepting s (.next (respond 0x00#8 s))

/-- The message state INIT leaves (R202). The error record is kept and BUF is not cleared. -/
def initMessage (s : State) : State :=
  { s with
    h := Latch.put s.params.hInit
    len := 0#29
    seq := { s.seq with pend2 := false }
    fsm := .absorb }

/-- INIT (R202). -/
def execInit (s : State) : Result := accepting s (.next (respond 0x00#8 (initMessage s)))

/-- CLRERR (R204). -/
def execClrerr (s : State) : Result := accepting s (.next (respond 0x00#8 { s with errs := ErrRec.clear }))

end Sys2Proof.Machine
end

