-- ==== Sys2Proof/Machine/Formatter.lean ====
section
/-! DEFINITION. The hex-digest formatter: RDHEX (44_formatter.md R190 to R193). -/

namespace Sys2Proof.Machine

/-- RDHEX (R192): SEQ outside DONE; in DONE the character `idx` of the rendering of H, and no effect but the response. -/
def execRdhex (idx : BitVec 6) (s : State) : Result :=
  accepting s <|
    if s.fsm ≠ .done then commandError .seq s
    else .next (respond (hexAt s.h.read idx) s)

end Sys2Proof.Machine
end

