-- ==== Sys2Proof/Machine/Padder.lean ====
section
/-! DEFINITION. The padder family: PUSH and FINAL (40_padder.md R102 to R104, R110 to R112). -/

namespace Sys2Proof.Machine

/-- The last LEN at which the guard admits no further byte: 2^29 - 1 (40_padder.md R104). -/
def lastLen : BitVec 29 := 536870911#29

/-- The state after PUSH has stored its byte and counted it (40_padder.md R102). -/
def absorbByte (b : Byte) (s : State) : State :=
  { s with buf := s.buf.write (fillLevel s.len).toNat b, len := s.len + 1#29 }

/-- PUSH (R102): SEQ outside ABSORB; TOO_LARGE under the guard (R104); the byte that fills the block starts a compression
(R103), whose end writes the response. -/
def execPush (b : Byte) (s : State) : Result :=
  accepting s <|
    if s.fsm ≠ .absorb then commandError .seq s
    else if s.params.lenGuard && s.len == lastLen then commandError .tooLarge s
    else if fillLevel s.len = 63#6 then .next (startBlock false .absorb (absorbByte b s))
    else .next (respond 0x00#8 (absorbByte b s))

/-- The buffer after FINAL's first writes (R110): the whole closing block (R111), or the marker and the zeros that fill the
block before the second one (R112). -/
def closeBuffer (s : State) : Memory :=
  let f := (fillLevel s.len).toNat
  s.buf.writeBytes f (if f ≤ 55 then closingTail f s.len else markerTail f)

/-- FINAL (R110): SEQ outside ABSORB; one closing block when f ≤ 55 (R111), two when f ≥ 56 (R112). The sequencer's last FOLD
sets FSM to DONE and writes the response. -/
def execFinal (s : State) : Result :=
  accepting s <|
    if s.fsm ≠ .absorb then commandError .seq s
    else .next (startBlock (decide (56 ≤ (fillLevel s.len).toNat)) .done { s with buf := closeBuffer s })

end Sys2Proof.Machine
end

