-- ==== Sys2Proof/Machine/Dispatch.lean ====
section
/-! DEFINITION. One arm per command of the opcode table. -/

namespace Sys2Proof.Machine

def exec (i : Instr) (s : State) : Host.Outcome State Fault Refusal :=
  match i with
  | .nop => Sys2Proof.Machine.execNop s
  | .init => Sys2Proof.Machine.execInit s
  | .push byte => Sys2Proof.Machine.execPush byte s
  | .final => Sys2Proof.Machine.execFinal s
  | .rdhex idx => Sys2Proof.Machine.execRdhex idx s
  | .clrerr => Sys2Proof.Machine.execClrerr s

end Sys2Proof.Machine
end

