-- ==== Sys2Proof/Machine/Port.lean ====
section
/-! DEFINITION. The ports: the command handshake, the outputs, the optional memory map, and one rising clock edge
(30_encoding.md R79, R81; 20_memory.md R58; 70_reset_and_hazards.md R250 to R262). -/

namespace Sys2Proof.Machine

/-- Input ports with `rst_n = 1` and no command presented. -/
def Pins.idle : Pins := { rstN := true, cmdValid := false, cmdWord := 0#32 }

/-- Input ports with `rst_n = 1` and the command word `w` presented. -/
def Pins.command (w : Word) : Pins := { rstN := true, cmdValid := true, cmdWord := w }

/-- `cmd_ready` with `rst_n = 1` (R81): FSM is not BUSY. A command still in progress after its accepting edge is one that
compresses, so "no previously accepted command is still in progress" says the same. Before the first reset nothing is ready. -/
def cmdReady (s : State) : Bool := s.live && decide (s.fsm ≠ .busy)

/-- The output ports (R79). -/
structure Outputs where
  cmdReady : Bool
  rspValid : Bool
  rspWord : Word
  statusO : BitVec 16
deriving DecidableEq, Repr

/-- The output ports under the input `rst_n` (R79, R81, R82). While `rst_n = 0`, `cmd_ready` and `rsp_valid` are 0 and
`status_o` shows only LGUARD (R250). Before the first reset the ports are undefined (R251): `none`. DESIGN CHOICE: in the first
`rst_n = 0` cycle after power-on, before its edge, R250 gives the ports values and R251 calls them undefined; the model answers
`none` there too. `none` claims nothing of any bit of a port, so the bits of `status_o` that R82 fixes are not contradicted (log
entry 4). -/
def outputs (rstN : Bool) (s : State) : Option Outputs :=
  if !s.live then none
  else if rstN then
    some { cmdReady := Sys2Proof.Machine.cmdReady s, rspValid := s.rspValid, rspWord := s.rsp, statusO := statusWord s }
  else
    some { cmdReady := false, rspValid := false, rspWord := s.rsp,
           statusO := statusWord (State.resetOf s.params) }

/-- An accepted command word (R75, R81): decoded before any state check (60_exceptions.md R223). A reserved or illegal word
is held while BUSY like any other, and raises its error when accepted (R222). -/
def acceptWord (w : Word) (s : State) : Result :=
  accepting s <|
    match decode w with
    | .cmd i => exec i s
    | .illegal => commandError .illegalOpc s
    | .reserved => commandError .rsvdBits s

/-- An edge at which nothing is accepted and the sequencer rests: only the `rsp_valid` pulse ends (R79, R234). -/
def restEdge (s : State) : State := { s with rspValid := false }

/-- One rising edge of `clk` with the given input ports. Reset comes first, whatever the core is doing (60_exceptions.md R229).
While BUSY the sequencer takes its step and `cmd_word` is not sampled (R261). Otherwise a presented command is accepted. -/
def clockEdge (p : Pins) (s : State) : Result :=
  if !p.rstN then .next (resetEdge s)
  else if s.live && s.fsm == .busy then tick s
  else if p.cmdValid then acceptWord p.cmdWord s
  else .next (restEdge s)

/-- The registers of the optional memory map (20_memory.md R58). -/
inductive MapReg where
  | cmd
  | rsp
  | status
  | reserved
deriving DecidableEq, Repr

/-- The register at a byte offset from `CORE_BASE` (20_memory.md R58). -/
def mapRegOf (off : Nat) : MapReg :=
  if off < 4 then .cmd else if off < 8 then .rsp else if off < 12 then .status else .reserved

/-- Which register a bus access reaches: none before `CORE_BASE` or from `CORE_BASE + 16` on (the platform's), and none for an
access that is not a naturally aligned 32-bit one (R58, 93 X9). -/
def mapAccess (s : State) (addr size : Nat) : Except Refusal MapReg :=
  if addr < s.params.coreBase ∨ s.params.coreBase + 16 ≤ addr then .error .busOutside
  else if busAccessWf s.params.coreBase addr size then .ok (mapRegOf (addr - s.params.coreBase))
  else .error .busAccess

/-- The FSM value that two free bits stand for. Codes 4 to 7 are never read (30_encoding.md R82). -/
def Fsm.ofBits (x : BitVec 2) : Fsm :=
  if x = 0#2 then .idle else if x = 1#2 then .absorb else if x = 2#2 then .busy else .done

/-- The cause of an error that two free bits stand for: one of the codes 1 to 4 of 60_exceptions.md R221. -/
def Cause.ofBits (x : BitVec 2) : Cause :=
  if x = 0#2 then .illegalOpc else if x = 1#2 then .rsvdBits else if x = 2#2 then .seq else .tooLarge

/-- The error record that free bits stand for: ERR and EOVF are free, and ECODE is a free cause, but "0 when ERR = 0"
(30_encoding.md R82) and then only (60_exceptions.md R221). -/
def undefinedErrs (x : BitVec 16) : ErrRec :=
  { err := x.getLsbD 3
    ecode := if x.getLsbD 3 then Cause.ofBits (x.extractLsb' 4 2) else .none
    eovf := x.getLsbD 8 }

/-- A status word before the first reset: FSM and the error record hold no value (70_reset_and_hazards.md R251) and come from the
free bits `x`. What 30_encoding.md R82 and 93 X8 say of the word itself holds at all times: bits 15 to 10 are 0, LGUARD is the
parameter, and only the defined codes are read. DEDUCED: R251 frees no bit that those two fix (log entry 4). -/
def undefinedStatus (x : BitVec 16) (s : State) : BitVec 16 :=
  statusWord { s with fsm := Fsm.ofBits (x.extractLsb' 0 2), errs := undefinedErrs x }

/-- A response word before the first reset, from the free word `x`: STAT is a status word and bits 15 to 8 are 0 (30_encoding.md
R80, 93 X8), and DATA is free. DESIGN CHOICE: STAT may show BUSY and DATA may be any byte, because no command has written RSP yet
(log entry 4). -/
def undefinedResponse (x : Word) (s : State) : Word :=
  responseWord (undefinedStatus (x.extractLsb' 16 16) s) (x.extractLsb' 0 8)

/-- RSP as the host reads it (20_memory.md R58). Before the first reset it holds no value (R251): a free response word. -/
def hostRsp (s : State) : Word :=
  if s.live then s.rsp else undefinedResponse (Config.undefinedRead s.undefReads) s

/-- STATUS as the host reads it (20_memory.md R58). Before the first reset its registers hold no value (R251): a free status
word. -/
def hostStatus (s : State) : BitVec 16 :=
  if s.live then statusWord s else undefinedStatus ((Config.undefinedRead s.undefReads).extractLsb' 0 16) s

/-- What a read of a memory-mapped register returns (20_memory.md R58). It has no side effect (R57). CMD and the reserved word read
as 0 whether or not the core has been reset. -/
def mapRead (r : MapReg) (s : State) : Word :=
  match r with
  | .cmd => 0#32
  | .rsp => hostRsp s
  | .status => (hostStatus s).setWidth 32
  | .reserved => 0#32

/-- The input ports at the coming edge, as the host's next action drives them (R79). A memory-mapped write to CMD presents its
word as a command (R58); every other bus access presents none. With no action left the host presents nothing. DESIGN CHOICE: only
`drive` can hold `rst_n` at 0. Every bus access, and every `send`, comes with `rst_n = 1`, because R58 does not say what a
memory-mapped access gives at an edge with `rst_n = 0` (log entry 7). -/
def pinsAt (s : State) : Pins :=
  match s.host with
  | [] => Pins.idle
  | .drive p :: _ => p
  | .send w :: _ => Pins.command w
  | .busRead _ _ :: _ => Pins.idle
  | .busWrite addr size data :: _ =>
    match mapAccess s addr size with
    | .ok .cmd => Pins.command data
    | _ => Pins.idle

/-- Why the host's next action is refused, if it is: an access the memory map does not define (R58, 93 X9). -/
def actRefusal (s : State) : Option Refusal :=
  match s.host with
  | .busRead addr size :: _ =>
    match mapAccess s addr size with
    | .error r => some r
    | .ok _ => none
  | .busWrite addr size _ :: _ =>
    match mapAccess s addr size with
    | .error r => some r
    | .ok _ => none
  | _ => none

/-- The host's list after a command it holds until accepted: gone at the edge that accepts it, and still presented while
`cmd_ready = 0` (R81; R58's bus stall). -/
def afterHeld (rest : List HostAct) (s : State) : State := if cmdReady s then { s with host := rest } else s

/-- What a memory-mapped read of `reg` leaves: its word is with the host, and nothing of the core changes (R57, R58). A read before
the first reset moves the model's count on, so that the next one gets another free value (log entry 4). -/
def serveRead (reg : MapReg) (rest : List HostAct) (s : State) : State :=
  { s with host := rest, busData := mapRead reg s, undefReads := if s.live then s.undefReads else s.undefReads + 1 }

/-- The host's side once its action for this edge is on the ports. A memory-mapped read gets the value its register holds
before the edge (R57, R58). A write to a register other than CMD is ignored (R58). -/
def afterAct (s : State) : State :=
  match s.host with
  | [] => s
  | .drive _ :: rest => { s with host := rest }
  | .send _ :: rest => afterHeld rest s
  | .busRead addr size :: rest =>
    match mapAccess s addr size with
    | .ok reg => serveRead reg rest s
    | .error _ => s
  | .busWrite addr size _ :: rest =>
    match mapAccess s addr size with
    | .ok .cmd => afterHeld rest s
    | _ => { s with host := rest }

/-- One rising edge with the host's next action on the ports. -/
def hostEdge (s : State) : Result :=
  match actRefusal s with
  | some r => .refused r
  | none => clockEdge (pinsAt s) (afterAct s)

end Sys2Proof.Machine
end

