-- ==== Sys2Proof/Machine/Step.lean ====
section
/-! DEFINITION. One step of the machine: one rising edge of `clk` (30_encoding.md R79). -/

namespace Sys2Proof.Machine

/-- One rising edge of `clk`. -/
def step (s : State) : Host.Outcome State Fault Refusal := Sys2Proof.Machine.hostEdge s

/-- `s` with the command word `w` as the host's next action. Commands come to the core on its command port alone
(30_encoding.md R79, R81), so this is where the next step takes its command from (log entry 5). -/
def State.withFetchWord (s : State) (nbits w : Nat) : State :=
  { s with host := .send (BitVec.ofNat 32 (w % 2 ^ nbits)) :: s.host }

end Sys2Proof.Machine
end

