-- ==== Sys2Proof/Machine/Assembler.lean ====
section
/-! DEFINITION. The assembler: syntax, pseudo-instructions and the host's text encoding (30_encoding.md R76, R77). What
the two rules leave open of the text syntax is log entry 11. -/

namespace Sys2Proof.Machine

/-- The UTF-8 bytes of a character, the host's text encoding in `PUSHS` and `DIGEST` (R77, 92_eei_decisions.md D2). The byte
patterns are PRESUMED from the Unicode standard (log entry 11). -/
def utf8 (c : Char) : List Byte :=
  let n := c.toNat
  if n < 0x80 then [BitVec.ofNat 8 n]
  else if n < 0x800 then [BitVec.ofNat 8 (0xC0 + n / 64), BitVec.ofNat 8 (0x80 + n % 64)]
  else if n < 0x10000 then
    [BitVec.ofNat 8 (0xE0 + n / 4096), BitVec.ofNat 8 (0x80 + n / 64 % 64), BitVec.ofNat 8 (0x80 + n % 64)]
  else
    [BitVec.ofNat 8 (0xF0 + n / 262144), BitVec.ofNat 8 (0x80 + n / 4096 % 64), BitVec.ofNat 8 (0x80 + n / 64 % 64),
     BitVec.ofNat 8 (0x80 + n % 64)]

/-- `PUSHS`: one PUSH per byte of the text; the empty string emits nothing (R77). -/
def pushText (text : List Char) : List Instr := (text.flatMap utf8).map Instr.push

/-- `RDALL`: RDHEX 0 to RDHEX 63 (R77). -/
def readAll : List Instr := (List.range 64).map fun i => .rdhex (BitVec.ofNat 6 i)

/-- The words a line emits when its operands are in range (R76, R77). -/
def emit : AsmLine → List Word
  | .nop => [encode .nop]
  | .init => [encode .init]
  | .push b => [encode (.push (BitVec.ofNat 8 b))]
  | .final => [encode .final]
  | .rdhex i => [encode (.rdhex (BitVec.ofNat 6 i))]
  | .clrerr => [encode .clrerr]
  | .word w => [BitVec.ofNat 32 w]
  | .pushs text => (pushText text).map encode
  | .pushb bs => bs.map fun b => encode (.push (BitVec.ofNat 8 b))
  | .rdall => readAll.map encode
  | .digest text => (.init :: (pushText text ++ .final :: readAll)).map encode

/-- Assembling a line: an operand out of range is an assembly error, and no word is emitted for it (R76). -/
def assemble (l : AsmLine) : Option (List Word) := if l.wf then some (emit l) else none

/-- Assembling lines in order; an error in one is an error of the whole. -/
def assembleAll : List AsmLine → Option (List Word)
  | [] => some []
  | l :: ls =>
    match assemble l, assembleAll ls with
    | some ws, some rest => some (ws ++ rest)
    | _, _ => none

/-- A space or a tab. -/
def isBlank (c : Char) : Bool := c == ' ' || c == '\t'

/-- What follows the spaces. -/
def skipBlanks (cs : List Char) : List Char := cs.dropWhile isBlank

/-- A letter in upper case: mnemonics are case-insensitive (R76). -/
def upperCase (c : Char) : Char := if 'a' ≤ c ∧ c ≤ 'z' then Char.ofNat (c.toNat - 32) else c

/-- A character of a mnemonic. -/
def isNameChar (c : Char) : Bool := c == '.' || (decide ('A' ≤ upperCase c) && decide (upperCase c ≤ 'Z'))

/-- The value of a digit in the given base. -/
def digitValue (base : Nat) (c : Char) : Option Nat :=
  let u := upperCase c
  let v := if '0' ≤ u ∧ u ≤ '9' then u.toNat - 48 else if 'A' ≤ u ∧ u ≤ 'F' then u.toNat - 55 else base
  if v < base then some v else none

/-- A numeral's digits, at least one, and what follows them. -/
def numeral (base : Nat) : Option Nat → List Char → Option (Nat × List Char)
  | acc, [] => acc.map fun n => (n, [])
  | acc, c :: cs =>
    match digitValue base c with
    | some d => numeral base (some (acc.getD 0 * base + d)) cs
    | none => acc.map fun n => (n, c :: cs)

/-- A number in decimal or `0x` hex, or a character literal for a code point below 0x80 (R76). -/
def operand : List Char → Option (Nat × List Char)
  | '0' :: 'x' :: cs => numeral 16 none cs
  | '\'' :: c :: '\'' :: cs => if c.toNat < 0x80 then some (c.toNat, cs) else none
  | cs => numeral 10 none cs

/-- A number as `RDHEX` takes it: decimal or `0x` hex. -/
def plainNumber : List Char → Option (Nat × List Char)
  | '0' :: 'x' :: cs => numeral 16 none cs
  | cs => numeral 10 none cs

/-- The raw word of `.word 0xXXXXXXXX` (R76). R76 writes eight digits and does not say that fewer or more are errors: DESIGN
CHOICE, any number of hex digits is read, and `AsmLine.wf` refuses a value of 2^32 or more (log entry 11). -/
def rawWord : List Char → Option (Nat × List Char)
  | '0' :: 'x' :: cs => numeral 16 none cs
  | _ => none

/-- The text of a quoted string up to its closing quote, and what follows. The grammar of R77 has no escapes. -/
def quoted : List Char → Option (List Char × List Char)
  | [] => none
  | '"' :: cs => some ([], cs)
  | c :: cs => (quoted cs).map fun r => (c :: r.1, r.2)

/-- Operands separated by commas, at most the given number of them (R77). -/
def operands : Nat → List Char → Option (List Nat × List Char)
  | 0, _ => none
  | n + 1, cs =>
    match operand (skipBlanks cs) with
    | none => none
    | some (b, rest) =>
      match skipBlanks rest with
      | ',' :: more => (operands n more).map fun r => (b :: r.1, r.2)
      | other => some ([b], other)

/-- Whether only a comment, or nothing, is left of a line: `;` starts a comment (R76). -/
def lineEnds (cs : List Char) : Bool :=
  match skipBlanks cs with
  | [] => true
  | ';' :: _ => true
  | _ => false

/-- A line whose operand has been read, if nothing but a comment follows it. -/
def finishLine {α : Type} (f : α → AsmLine) (r : Option (α × List Char)) : Option AsmLine :=
  match r with
  | some (x, rest) => if lineEnds rest then some (f x) else none
  | none => none

/-- A quoted operand. -/
def quotedOperand : List Char → Option (List Char × List Char)
  | '"' :: cs => quoted cs
  | _ => none

/-- A line from its mnemonic, in upper case, and the text that follows (R76, R77). -/
def parseOperands (name rest : List Char) : Option AsmLine :=
  let bare (l : AsmLine) : Option AsmLine := if lineEnds rest then some l else none
  let arg := skipBlanks rest
  if name = ['N', 'O', 'P'] then bare .nop
  else if name = ['I', 'N', 'I', 'T'] then bare .init
  else if name = ['F', 'I', 'N', 'A', 'L'] then bare .final
  else if name = ['C', 'L', 'R', 'E', 'R', 'R'] then bare .clrerr
  else if name = ['R', 'D', 'A', 'L', 'L'] then bare .rdall
  else if name = ['P', 'U', 'S', 'H'] then finishLine .push (operand arg)
  else if name = ['R', 'D', 'H', 'E', 'X'] then finishLine .rdhex (plainNumber arg)
  else if name = ['.', 'W', 'O', 'R', 'D'] then finishLine .word (rawWord arg)
  else if name = ['P', 'U', 'S', 'H', 'B'] then finishLine .pushb (operands arg.length arg)
  else if name = ['P', 'U', 'S', 'H', 'S'] then finishLine .pushs (quotedOperand arg)
  else if name = ['D', 'I', 'G', 'E', 'S', 'T'] then finishLine .digest (quotedOperand arg)
  else none

/-- The lines of a text line: none for a blank line or a comment alone, one for a command (R76). `none` as the outcome is a
line that is no line of the syntax. DESIGN CHOICE: the mnemonic is the longest run of letters and dots, and no blank is needed
between it and its operand (log entry 11). -/
def parseLine (cs : List Char) : Option (List AsmLine) :=
  let body := skipBlanks cs
  if lineEnds body then some []
  else
    let name := body.takeWhile isNameChar
    (parseOperands (name.map upperCase) (body.drop name.length)).map fun l => [l]

/-- A command program in text, one command per line (R76): the words it emits, or nothing if a line is in error. -/
def assembleText (lines : List (List Char)) : Option (List Word) :=
  match lines with
  | [] => some []
  | cs :: more =>
    match parseLine cs, assembleText more with
    | some ls, some rest => (assembleAll ls).map fun ws => ws ++ rest
    | _, _ => none

end Sys2Proof.Machine
end

