-- ==== Sys2Proof/Machine/Reference.lean ====
section
/-! DEFINITION. The algorithm on whole messages: padding, block compression, the hash of a message and its digest
(40_padder.md R100, R101, R108; 43_compression.md R176, R177; 44_formatter.md R190). The core computes these through its
commands (R113); they are stated here on their own so that claims can compare the two. -/

namespace Sys2Proof.Machine

/-- `P(L) = 64 * (floor((L + 8) / 64) + 1)` (R101). -/
def paddedLength (L : Nat) : Nat := 64 * ((L + 8) / 64 + 1)

/-- `nblocks(L)` (R101). -/
def nblocks (L : Nat) : Nat := paddedLength L / 64

/-- The length field of R108: `B32 = B mod 2^32` with `B = 8*L`, and `LF(L)[i] = (B32 >> ((i*8) mod 32)) & 0xFF`. -/
def lengthField (L : Nat) : List Byte :=
  (List.range 8).map fun i => BitVec.ofNat 8 (((8 * L) % 2 ^ 32) >>> ((i * 8) % 32))

/-- `pad(M) = M ‖ [0x80] ‖ zeros(k) ‖ LF(L)` with `k = P - L - 9` (R100). -/
def pad (M : List Byte) : List Byte :=
  M ++ marker :: (List.replicate (paddedLength M.length - M.length - 9) 0x00#8 ++ lengthField M.length)

/-- One more schedule word by the recurrence of R145. -/
def extendSchedule (ws : List Word) : List Word :=
  ws ++ [expandWord (ws.getD (ws.length - 16) 0#32) (ws.getD (ws.length - 15) 0#32)
    (ws.getD (ws.length - 7) 0#32) (ws.getD (ws.length - 2) 0#32)]

/-- The first words of a schedule extended by `n` more (R145). -/
def extendBy : Nat → List Word → List Word
  | 0, ws => ws
  | n + 1, ws => extendBy n (extendSchedule ws)

/-- The message schedule W[0..63] of a block (R144, R145). -/
def scheduleOf (block : List Byte) : List Word := extendBy 48 (wordsOf block)

/-- Rounds `t, t + 1, ...`, one for each schedule word in the list (R170, R175). -/
def roundsFrom : Nat → List Word → Vars → Vars
  | _, [], v => v
  | t, x :: xs, v => roundsFrom (t + 1) xs (hashRound (BitVec.ofNat 6 t) x v)

/-- `compress(H, blk)` (R176). -/
def compress (h : Vector Word 8) (block : List Byte) : Vector Word 8 :=
  foldHash h (roundsFrom 0 (scheduleOf block) (varsOfHash h))

/-- `n` blocks of a padded message, compressed left to right (R177). -/
def compressBlocks : Nat → Vector Word 8 → List Byte → Vector Word 8
  | 0, h, _ => h
  | n + 1, h, P => compressBlocks n (compress h (P.take 64)) (P.drop 64)

/-- `Hfinal(H0, P)` (R177). -/
def hfinal (h0 : Vector Word 8) (P : List Byte) : Vector Word 8 := compressBlocks (P.length / 64) h0 P

/-- `hex(H)`, the 64 characters in order (R190). -/
def hexDigits (h : Vector Word 8) : List Byte := (List.range 64).map fun i => hexAt h (BitVec.ofNat 6 i)

/-- `digest(M) = hex(Hfinal(H_INIT, pad(M)))` (R177). -/
def digest (hInit : Vector Word 8) (M : List Byte) : List Byte := hexDigits (hfinal hInit (pad M))

/-- The commands that hash a message: INIT, one PUSH per byte, FINAL (70_reset_and_hazards.md R253). -/
def messageCommands (M : List Byte) : List Instr := .init :: (M.map Instr.push ++ [.final])

end Sys2Proof.Machine
end

