-- ==== Sys2Proof/Machine/Transaction.lean ====
section
/-! DEFINITION. The transaction level (00_scope.md R11): an accepted command together with the block compressions it starts. -/

namespace Sys2Proof.Machine

/-- The sequencer's steps until FSM leaves BUSY, at most the given number of them. -/
def drain : Nat → State → Result
  | 0, s => .next s
  | n + 1, s =>
    if s.fsm = .busy then
      match tick s with
      | .next t => drain n t
      | .fault r => .fault r
      | .refused r => .refused r
    else .next s

/-- The most sequencer steps one command takes: two blocks of LOAD, 64 ROUND and FOLD (43_compression.md R175). -/
def maxBusySteps : Nat := 132

/-- An accepted command as one transition, with every block compression it starts (R11, 20_memory.md R56). -/
def transact (i : Instr) (s : State) : Result :=
  match exec i s with
  | .next t => drain maxBusySteps t
  | .fault r => .fault r
  | .refused r => .refused r

/-- Commands in acceptance order, each completing before the next is accepted (20_memory.md R59). -/
def transactAll : List Instr → State → Result
  | [], s => .next s
  | i :: is, s =>
    match transact i s with
    | .next t => transactAll is t
    | .fault r => .fault r
    | .refused r => .refused r

end Sys2Proof.Machine
end

