-- ==== Sys2Proof/Safety.lean ====
section
/-! DEFINITION. What counts as a ready core, a safe step and a sound state, in the terms the claims use. -/

namespace Sys2Proof.Machine

/-- The core accepts a command presented now: it has been reset (70_reset_and_hazards.md R251) and FSM is not BUSY
(30_encoding.md R81). -/
def Ready (s : State) : Prop := s.live = true ∧ s.fsm ≠ .busy

/-- The host's next action presents the word `w` as a command: on the command port, for one edge or until accepted, or by a
memory-mapped write to CMD (30_encoding.md R81, 20_memory.md R58). -/
def Presents (s : State) (w : Word) : Prop :=
  actRefusal s = none ∧ (pinsAt s).rstN = true ∧ (pinsAt s).cmdValid = true ∧ (pinsAt s).cmdWord = w

/-- The coming edge is a reset edge (70_reset_and_hazards.md R250). -/
def ResetEdge (s : State) : Prop := (pinsAt s).rstN = false

/-- The coming edge accepts the command `i` (30_encoding.md R81). -/
def Accepts (s : State) (i : Instr) : Prop := Ready s ∧ ∃ w, Presents s w ∧ decode w = .cmd i

/-- The coming edge is the sequencer's step `u` (43_compression.md R171 to R174). -/
def Sequencing (s : State) (u : Sub) : Prop :=
  s.live = true ∧ s.fsm = .busy ∧ s.seq.sub = u ∧ ¬ ResetEdge s

/-- A step that is no model fault: no unwritten byte of BUF is read (10_state.md R33). -/
def Safe (o : Result) : Prop := ∀ r, o ≠ .fault r

/-- The first `n` bytes of BUF are written. -/
def BufFilled (m : Memory) (n : Nat) : Prop := ∀ a, a < n → (m.read a).isSome = true

/-- `W[0..n-1]` are written. -/
def SchedFilled (w : Vector (Latch Word) 64) (n : Nat) : Prop := ∀ t : BitVec 6, t.toNat < n → (schedRead w t).isSome = true

/-- The stores that hold no value before the first write (10_state.md R33). -/
inductive Store where
  | hash
  | vars
  | schedule
  | buf
deriving DecidableEq, Repr

/-- The schedule words, computed before it, that round t reads (43_compression.md R172). -/
def schedReads (t : BitVec 6) : List (BitVec 6) :=
  if t.toNat < 16 then [t] else [t - 16#6, t - 15#6, t - 7#6, t - 2#6]

/-- The coming edge reads a cell of the store that no rule has written (10_state.md R33): the sequencer reads H at LOAD and FOLD,
a..h at ROUND and FOLD, W at ROUND and BUF at LOAD, and RDHEX in DONE reads H (R21 to R24). -/
def ReadsUnwritten (s : State) : Store → Prop
  | .hash => s.h.written = false ∧
      (Sequencing s .load ∨ Sequencing s .fold ∨ ∃ idx, Accepts s (.rdhex idx) ∧ s.fsm = .done)
  | .vars => s.vars.written = false ∧ (Sequencing s .round ∨ Sequencing s .fold)
  | .schedule => Sequencing s .round ∧ ∃ u ∈ schedReads s.seq.tcnt, schedRead s.w u = none
  | .buf => Sequencing s .load ∧ ¬ BufFilled s.buf 64

/-- Which FSM states accept a command without SEQ (60_exceptions.md R222). -/
def legalIn : Instr → Fsm → Bool
  | .nop, _ => true
  | .init, _ => true
  | .push _, f => decide (f = .absorb)
  | .final, f => decide (f = .absorb)
  | .rdhex _, f => decide (f = .done)
  | .clrerr, _ => true

/-- The invariant of 10_state.md R33 and R34 and of the status word: every cell the next command or the sequencer may read
has been written, BUF keeps its canonical form, the error fields agree with each other (30_encoding.md R82), and RSP
holds a response word whose zero bits are zero and whose STAT is not BUSY (R80). -/
structure Sound (s : State) : Prop where
  buf_wf : s.buf.wf = true
  hash_written : s.fsm ≠ .idle → s.h.written = true
  absorb_buf : s.fsm = .absorb → BufFilled s.buf (fillLevel s.len).toNat
  load_buf : s.fsm = .busy → s.seq.sub = .load → BufFilled s.buf 64
  vars_written : s.fsm = .busy → s.seq.sub ≠ .load → s.vars.written = true
  round_sched : s.fsm = .busy → s.seq.sub = .round → SchedFilled s.w (max 16 s.seq.tcnt.toNat)
  ret_absorb : s.fsm = .busy → s.seq.ret = .absorb → s.seq.pend2 = false ∧ fillLevel s.len = 0#6
  pend2_busy : s.seq.pend2 = true → s.fsm = .busy
  err_clear : s.errs.err = false → s.errs.ecode = .none ∧ s.errs.eovf = false
  err_set : s.errs.err = true → s.errs.ecode ≠ .none
  rsp_zero : s.rsp.extractLsb' 8 8 = 0#8
  rsp_not_busy : s.rsp.extractLsb' 16 3 ≠ Fsm.busy.code

end Sys2Proof.Machine
end

