-- ==== Sys2Proof/Certificates/Slice0/Obligations.lean ====
section
/-! DEFINITION. The statements about the core, from the numbered rules of the spec. What a statement says of H, a..h and W it
says of the words they store, written or not: that a register nothing has written is read without a stop is the model's choice
(log entry 2), and SoundStepsNeverFault and RunsFromResetNeverFault say that no run comes to such a read. -/

open Sys2Proof Sys2Proof.Machine

/-! ## Encoding -/

/-- 30_encoding.md R71 to R75: decoding the word of a command gives the command back, with every operand at every value. -/
def Obligations.DecodeEncodeRoundTrip : Prop := ∀ i : Instr, decode (encode i) = .cmd i

/-- 30_encoding.md R70 to R75: a word that decodes to a command is that command's one word, so each command has one spelling. -/
def Obligations.DecodedWordIsEncoded : Prop := ∀ (w : Word) (i : Instr), decode w = .cmd i → w = encode i

/-- 30_encoding.md R73: the must-be-zero masks and the match words; which words spell a command, by `(word & mask) == match`, and
which bits are the free field; which words are reserved encodings; and that an accepted reserved encoding raises RSVD_BITS and
nothing else. -/
def Obligations.SpelledAndReservedWords : Prop :=
  (∀ (w : Word) (i : Instr),
    w &&& tableMask i = tableMatch i ↔ ∃ j, decode w = .cmd j ∧ tableMatch j = tableMatch i) ∧
  (∀ i : Instr, tableMask i = mustBeZero ((tableMatch i).extractLsb' 0 4) ||| 0xF#32) ∧
  [0x0#4, 0x1#4, 0x2#4, 0x3#4, 0x4#4, 0x5#4].map mustBeZero =
    [0xFFFFFFF0#32, 0xFFFFFFF0#32, 0xFFFF00F0#32, 0xFFFFFFF0#32, 0xFFFFC0F0#32, 0xFFFFFFF0#32] ∧
  (∀ (b : Byte) (idx : BitVec 6), [Instr.nop, .init, .push b, .final, .rdhex idx, .clrerr].map tableMatch =
    [0x00000000#32, 0x00000001#32, 0x00000002#32, 0x00000003#32, 0x00000004#32, 0x00000005#32]) ∧
  (∀ (w : Word) (b : Byte), decode w = .cmd (.push b) → b = w.extractLsb' 8 8) ∧
  (∀ (w : Word) (idx : BitVec 6), decode w = .cmd (.rdhex idx) → idx = w.extractLsb' 8 6) ∧
  (∀ w : Word, decode w = .reserved ↔ (opcOf w).toNat < 6 ∧ w &&& mustBeZero (opcOf w) ≠ 0#32) ∧
  (∀ (s : State) (w : Word), Ready s → decode w = .reserved → acceptWord w s = commandError .rsvdBits s)

/-- 95_test_vectors.md T13 over 30_encoding.md R70 to R75: sample words and what they decode to. -/
def Obligations.SampleWordsDecode : Prop :=
  decode 0x00000000#32 = .cmd .nop ∧ decode 0x00000001#32 = .cmd .init ∧
  decode 0x00006102#32 = .cmd (.push 0x61#8) ∧ decode 0x0000FF02#32 = .cmd (.push 0xFF#8) ∧
  decode 0x00000003#32 = .cmd .final ∧ decode 0x00003F04#32 = .cmd (.rdhex 63#6) ∧
  decode 0x00000005#32 = .cmd .clrerr ∧ decode 0x00000106#32 = .illegal ∧ decode 0xFFFFFFFF#32 = .illegal ∧
  decode 0xFFFFFFF0#32 = .reserved ∧ decode 0x00000101#32 = .reserved ∧ decode 0x00004004#32 = .reserved ∧
  decode 0x00010002#32 = .reserved

/-- 30_encoding.md R76, R77: an operand out of range (of PUSH, RDHEX, PUSHB or .word) emits no word; in range each mnemonic emits
its one word; every word a line other than .word emits spells a command; PUSHS and PUSHB are one PUSH per byte in order, RDALL is
RDHEX 0 to 63, and DIGEST is INIT, PUSHS, FINAL, RDALL. -/
def Obligations.AssemblerEmitsCommands : Prop :=
  (∀ (l : AsmLine) (ws : List Word) (w : Word),
    assemble l = some ws → w ∈ ws → (∀ n, l ≠ .word n) → ∃ i, decode w = .cmd i) ∧
  (∀ n, 256 ≤ n → assemble (.push n) = none) ∧ (∀ n, 64 ≤ n → assemble (.rdhex n) = none) ∧
  (∀ (bs : List Nat) (b : Nat), b ∈ bs → 256 ≤ b → assemble (.pushb bs) = none) ∧
  (∀ n, 2 ^ 32 ≤ n → assemble (.word n) = none) ∧ (∀ w : Word, assemble (.word w.toNat) = some [w]) ∧
  assemble .nop = some [0x00000000#32] ∧ assemble .init = some [0x00000001#32] ∧
  assemble .final = some [0x00000003#32] ∧ assemble .clrerr = some [0x00000005#32] ∧
  (∀ n, n < 256 → assemble (.push n) = some [encode (.push (BitVec.ofNat 8 n))]) ∧
  (∀ n, n < 64 → assemble (.rdhex n) = some [encode (.rdhex (BitVec.ofNat 6 n))]) ∧
  (∀ text, assemble (.pushs text) = some ((text.flatMap utf8).map fun b => encode (.push b))) ∧
  assemble (.pushs []) = some [] ∧
  (∀ bs : List Byte, assemble (.pushb (bs.map BitVec.toNat)) = some (bs.map fun b => encode (.push b))) ∧
  assemble .rdall = some (readAll.map encode) ∧
  (∀ text, assemble (.digest text) = some ((messageCommands (text.flatMap utf8) ++ readAll).map encode)) ∧
  readAll.length = 64 ∧ ∀ i, i < 64 → readAll[i]? = some (.rdhex (BitVec.ofNat 6 i))

/-! ## Ports, reset and the memory map -/

/-- 30_encoding.md R81: a step of a ready core whose host presents a word that decodes to a command is `exec` of that command,
with the word taken off the host's list. The CMD write is one to a naturally aligned CORE_BASE, which 20_memory.md R58 asks. -/
def Obligations.StepRunsDecodedCommand : Prop :=
  ∀ (s : State) (w : Word) (i : Instr) (rest : List HostAct), Ready s → decode w = .cmd i →
    (s.host = .send w :: rest → step s = exec i { s with host := rest }) ∧
    (s.host = .drive ⟨true, true, w⟩ :: rest → step s = exec i { s with host := rest }) ∧
    (s.params.coreBase % 4 = 0 → s.host = .busWrite s.params.coreBase 4 w :: rest →
      step s = exec i { s with host := rest })

/-- 60_exceptions.md R223: the checks on an accepted word are made in the order ILLEGAL_OPC, RSVD_BITS, SEQ, TOO_LARGE; the
first that fails gives the one error the command raises; and a command that passes them all raises none. -/
def Obligations.ErrorPriority : Prop :=
  ∀ (s : State) (w : Word), Ready s →
    (6 ≤ (opcOf w).toNat → acceptWord w s = commandError .illegalOpc s) ∧
    ((opcOf w).toNat < 6 → w &&& mustBeZero (opcOf w) ≠ 0#32 → acceptWord w s = commandError .rsvdBits s) ∧
    (∀ i, decode w = .cmd i → legalIn i s.fsm = false → acceptWord w s = commandError .seq s) ∧
    (∀ b, decode w = .cmd (.push b) → s.fsm = .absorb → s.params.lenGuard = true → s.len = lastLen →
      acceptWord w s = commandError .tooLarge s) ∧
    (∀ i, decode w = .cmd i → legalIn i s.fsm = true →
      (∀ b, i = .push b → s.params.lenGuard = false ∨ s.len ≠ lastLen) →
      ∃ t, acceptWord w s = .next t ∧ t.errs = if i = .clrerr then ErrRec.clear else s.errs)

/-- 70_reset_and_hazards.md R260, R261: while BUSY a presented command is held. The step is the sequencer's own, the host's
`send` stays where it is, and what is on `cmd_valid` and `cmd_word` makes no difference. That `exec` answers the unchanged
state for a held command is the model's choice (log entry 9). -/
def Obligations.BusyHoldsCommands : Prop :=
  ∀ s : State, s.live = true → s.fsm = .busy →
    (∀ (w : Word) (rest : List HostAct), s.host = .send w :: rest → step s = tick s) ∧
    (∀ (v : Bool) (w : Word) (rest : List HostAct), s.host = .drive ⟨true, v, w⟩ :: rest →
      step s = tick { s with host := rest }) ∧
    (∀ i : Instr, exec i s = .next s) ∧ (∀ w : Word, acceptWord w s = .next s)

/-- 10_state.md R32, 70_reset_and_hazards.md R250, R252: an edge with `rst_n = 0`, in any state, leaves the reset values; H,
a..h, W and BUF hold no value; no response is written; and the next edge may accept a command. -/
def Obligations.ResetEdgeValues : Prop :=
  ∀ (s : State) (p : Pins) (rest : List HostAct), s.host = .drive p :: rest → p.rstN = false →
    ∃ t, step s = .next t ∧ t.fsm = .idle ∧ t.len = 0#29 ∧ t.seq.tcnt = 0#6 ∧ t.seq.pend2 = false ∧
      t.errs.err = false ∧ t.errs.ecode.code = 0#4 ∧ t.errs.eovf = false ∧ t.rsp = 0x00000000#32 ∧
      t.rspValid = false ∧ t.params = s.params ∧ t.h.get? = none ∧ t.vars.get? = none ∧
      (∀ u, schedRead t.w u = none) ∧ (∀ a, t.buf.read a = none) ∧ t.host = rest ∧ Ready t ∧
      outputs false t = some
        { cmdReady := false, rspValid := false, rspWord := 0x00000000#32,
          statusO := if s.params.lenGuard then 0x0200#16 else 0x0000#16 }

/-- 70_reset_and_hazards.md R251 (93 X10): before the first reset the ports are undefined and every command is refused, however
it is presented: kept until accepted, driven for one edge, or written to the memory-mapped CMD. No memory-mapped read is refused:
20_memory.md R58 gives CMD and the reserved word as 0, and RSP and STATUS are a response word and a status word whose fields come
from a free value, because R251 gives them none (UndefinedStatusFields says which fields). Writes to RSP, STATUS and the reserved
word are ignored (R58). That a read is served in one edge, and with a fresh free value, is the model's choice (log entries 4 and 7),
and so is that no port has a value in a cycle with `rst_n = 0` (log entry 4). -/
def Obligations.BeforeFirstReset : Prop :=
  ∀ s : State, s.live = false →
    (∀ r, outputs r s = none) ∧ (∀ i : Instr, exec i s = .refused .beforeReset) ∧
    (∀ (w : Word) (rest : List HostAct), s.host = .send w :: rest → step s = .refused .beforeReset) ∧
    (∀ (w : Word) (rest : List HostAct), s.host = .drive ⟨true, true, w⟩ :: rest → step s = .refused .beforeReset) ∧
    (s.params.coreBase % 4 = 0 →
      (∀ (w : Word) (rest : List HostAct), s.host = .busWrite s.params.coreBase 4 w :: rest →
        step s = .refused .beforeReset) ∧
      (∀ (off : Nat) (x : Word) (rest : List HostAct), s.host = .busRead (s.params.coreBase + off) 4 :: rest →
        (off, x) ∈ [(0, 0#32), (4, undefinedResponse (Config.undefinedRead s.undefReads) s),
          (8, (undefinedStatus ((Config.undefinedRead s.undefReads).extractLsb' 0 16) s).setWidth 32), (12, 0#32)] →
        step s = .next { s with host := rest, busData := x, undefReads := s.undefReads + 1, rspValid := false }) ∧
      (∀ (off : Nat) (x : Word) (rest : List HostAct), off ∈ [4, 8, 12] →
        s.host = .busWrite (s.params.coreBase + off) 4 x :: rest →
        step s = .next { s with host := rest, rspValid := false }))

/-- 30_encoding.md R81, R79: after a reset `cmd_ready` is 1 exactly when FSM is not BUSY, and the other output ports show
`rsp_valid`, RSP and the status word. With nothing presented a ready core only ends the `rsp_valid` pulse. -/
def Obligations.OutputsAndQuietEdge : Prop :=
  ∀ s : State, s.live = true →
    (∃ o, outputs true s = some o ∧ (o.cmdReady = true ↔ s.fsm ≠ .busy) ∧ o.rspValid = s.rspValid ∧
      o.rspWord = s.rsp ∧ o.statusO = statusWord s) ∧
    (s.fsm ≠ .busy → s.host = [] → step s = .next { s with rspValid := false })

/-- 20_memory.md R55, R57, R58 (93 X9): the memory map of a core that has been reset. Reads return CMD as 0, RSP, the
zero-extended STATUS and the reserved word as 0, whether or not the core is BUSY (R55: status is "always readable"), and have no
side effect (R57): while BUSY the step is the sequencer's own. Writes to RSP, STATUS and the reserved word are ignored, likewise.
A write to CMD presents the word, and stalls while BUSY. Every access inside the window that is not a naturally aligned 32-bit one
is refused; with a CORE_BASE that is no multiple of 4 that is every access to a register. That an access is served in one edge,
with the values from before it, is the model's choice, and so is the refusal of an aligned address that falls between two
registers of such a CORE_BASE (log entry 7). -/
def Obligations.MemoryMap : Prop :=
  ∀ (s : State) (rest : List HostAct), s.live = true →
    (s.params.coreBase % 4 = 0 →
      (∀ (off : Nat) (x : Word), s.fsm ≠ .busy → s.host = .busRead (s.params.coreBase + off) 4 :: rest →
        (off, x) ∈ [(0, 0#32), (4, s.rsp), (8, (statusWord s).setWidth 32), (12, 0#32)] →
        step s = .next { s with host := rest, busData := x, rspValid := false }) ∧
      (∀ (off : Nat) (x : Word), s.fsm ≠ .busy → s.host = .busWrite (s.params.coreBase + off) 4 x :: rest →
        off ∈ [4, 8, 12] → step s = .next { s with host := rest, rspValid := false }) ∧
      (∀ (off : Nat) (x : Word), s.fsm = .busy → s.host = .busRead (s.params.coreBase + off) 4 :: rest →
        (off, x) ∈ [(0, 0#32), (4, s.rsp), (8, (statusWord s).setWidth 32), (12, 0#32)] →
        step s = tick { s with host := rest, busData := x }) ∧
      (∀ (off : Nat) (x : Word), s.fsm = .busy → s.host = .busWrite (s.params.coreBase + off) 4 x :: rest →
        off ∈ [4, 8, 12] → step s = tick { s with host := rest }) ∧
      (∀ x : Word, s.fsm ≠ .busy → s.host = .busWrite s.params.coreBase 4 x :: rest →
        step s = acceptWord x { s with host := rest }) ∧
      (∀ x : Word, s.fsm = .busy → s.host = .busWrite s.params.coreBase 4 x :: rest → step s = tick s)) ∧
    (∀ (off size : Nat) (x : Word), off < 16 → size ≠ 4 ∨ (s.params.coreBase + off) % 4 ≠ 0 ∨ off % 4 ≠ 0 →
      (s.host = .busRead (s.params.coreBase + off) size :: rest → step s = .refused .busAccess) ∧
      (s.host = .busWrite (s.params.coreBase + off) size x :: rest → step s = .refused .busAccess))

/-- 30_encoding.md R82: the fields of the status word, with the values of 60_exceptions.md R221 and 10_state.md R26. -/
def Obligations.StatusWordFields : Prop :=
  ∀ s : State,
    (statusWord s).extractLsb' 0 3 =
      (match s.fsm with | .idle => 0#3 | .absorb => 1#3 | .busy => 2#3 | .done => 3#3) ∧
    (statusWord s).getLsbD 3 = s.errs.err ∧
    (statusWord s).extractLsb' 4 4 =
      (match s.errs.ecode with
        | .none => 0#4 | .illegalOpc => 1#4 | .rsvdBits => 2#4 | .seq => 3#4 | .tooLarge => 4#4) ∧
    (statusWord s).getLsbD 8 = s.errs.eovf ∧ (statusWord s).getLsbD 9 = s.params.lenGuard ∧
    (statusWord s).extractLsb' 10 6 = 0#6

/-- 30_encoding.md R80, 70_reset_and_hazards.md R262: an edge that leaves `rsp_valid` at 1 has written a response whose zero
bits are 0, whose STAT is the status after the command's effects, and whose FSM is not BUSY; any other edge but a reset leaves
RSP as it was. -/
def Obligations.ResponseCarriesStatus : Prop :=
  ∀ s t : State, step s = .next t →
    (t.rspValid = true →
      t.rsp.extractLsb' 8 8 = 0#8 ∧ t.rsp.extractLsb' 16 16 = statusWord t ∧ t.fsm ≠ .busy) ∧
    (t.rspValid = false → (pinsAt s).rstN = true → t.rsp = s.rsp)

/-! ## The commands -/

/-- 45_control.md R200: NOP is the word 0; it responds with DATA 0x00 and the status in IDLE, ABSORB and DONE and changes no
other other state; any other word with OPC 0 raises RSVD_BITS; right after reset NOP responds 0x00000000; and BUSY holds it. -/
def Obligations.NopRule : Prop :=
  (∀ w : Word, decode w = .cmd .nop ↔ w = 0x00000000#32) ∧
  (∀ s : State, Ready s →
    exec .nop s = .next { s with rsp := responseWord (statusWord s) 0x00#8, rspValid := true }) ∧
  (∀ (s : State) (w : Word), Ready s → opcOf w = 0x0#4 → w ≠ 0x00000000#32 →
    acceptWord w s = commandError .rsvdBits s) ∧
  (∀ p : Params, p.lenGuard = false →
    exec .nop (State.resetOf p) = .next { State.resetOf p with rsp := 0x00000000#32, rspValid := true }) ∧
  (∀ (s : State) (rest : List HostAct), s.live = true → s.fsm = .busy →
    step { s with host := .send 0x00000000#32 :: rest } = tick { s with host := .send 0x00000000#32 :: rest })

/-- 45_control.md R202: INIT writes H_INIT into H, clears LEN and PEND2, opens a message, keeps the error record and BUF, and
changes nothing else; twice in a row is the same as once; and RDHEX after it is SEQ. -/
def Obligations.InitRule : Prop :=
  (∀ w : Word, decode w = .cmd .init ↔ w = 0x00000001#32) ∧
  (∀ s : State, Ready s →
    exec .init s = .next (respond 0x00#8
      { s with
        h := Latch.put s.params.hInit
        len := 0#29
        seq := { s.seq with pend2 := false }
        fsm := .absorb })) ∧
  (∀ s t : State, Ready s → exec .init s = .next t → exec .init t = .next t) ∧
  (∀ (s t : State) (idx : BitVec 6), Ready s → exec .init s = .next t → exec (.rdhex idx) t = commandError .seq t) ∧
  (∀ p : Params, p.lenGuard = false →
    ∃ t, exec .init (State.resetOf p) = .next t ∧ t.h.get? = some p.hInit ∧ t.len = 0#29 ∧ t.rsp = 0x00010000#32)

/-- 45_control.md R204: CLRERR clears ERR, ECODE and EOVF and changes neither FSM nor any message state; a CLRERR word with a
reserved bit set raises RSVD_BITS instead; with no error recorded it leaves the record as it is; and from STATUS 0x0039 it
responds 0x00010000. -/
def Obligations.ClrerrRule : Prop :=
  (∀ w : Word, decode w = .cmd .clrerr ↔ w = 0x00000005#32) ∧
  (∀ s : State, Ready s →
    exec .clrerr s = .next (respond 0x00#8 { s with errs := { err := false, ecode := .none, eovf := false } })) ∧
  (∀ (s : State) (w : Word), Ready s → opcOf w = 0x5#4 → w ≠ 0x00000005#32 →
    acceptWord w s = commandError .rsvdBits s) ∧
  (∀ s : State, Ready s → Sound s → s.errs.err = false → ∃ t, exec .clrerr s = .next t ∧ t.errs = s.errs) ∧
  (∀ s : State, Ready s → statusWord s = 0x0039#16 → ∃ t, exec .clrerr s = .next t ∧ t.rsp = 0x00010000#32)

/-- 44_formatter.md R192: RDHEX outside DONE is SEQ; in DONE it answers character `idx` of the rendering of H and changes no
state but the response; the same index again gives the same answer; a word with bit 15 or 14, or any other reserved bit, set
raises RSVD_BITS; and with H[0] = 0xF19564CD and no error RDHEX 0 and 7 respond 0x00030066 and 0x00030064. That RDHEX answers
also for an H that nothing has written is the model's choice (log entry 2). -/
def Obligations.RdhexRule : Prop :=
  (∀ (w : Word) (idx : BitVec 6),
    decode w = .cmd (.rdhex idx) ↔ w &&& 0xFFFFC0FF#32 = 0x00000004#32 ∧ idx = w.extractLsb' 8 6) ∧
  (∀ (s : State) (idx : BitVec 6), Ready s → s.fsm ≠ .done → exec (.rdhex idx) s = commandError .seq s) ∧
  (∀ (s : State) (idx : BitVec 6), Ready s → s.fsm = .done →
    exec (.rdhex idx) s = .next (respond (hexAt s.h.val idx) s) ∧
      exec (.rdhex idx) (respond (hexAt s.h.val idx) s) = .next (respond (hexAt s.h.val idx) s)) ∧
  (∀ (s : State) (w : Word), Ready s → opcOf w = 0x4#4 → w &&& 0xFFFFC0F0#32 ≠ 0#32 →
    acceptWord w s = commandError .rsvdBits s) ∧
  (∀ s : State, Ready s → s.h.val[0] = 0xF19564CD#32 → statusWord s = 0x0003#16 →
    (∃ t, exec (.rdhex 0#6) s = .next t ∧ t.rsp = 0x00030066#32) ∧
      ∃ t, exec (.rdhex 7#6) s = .next t ∧ t.rsp = 0x00030064#32)

/-- 40_padder.md R102, R103: what PUSH does at its accepting edge. SEQ outside ABSORB; TOO_LARGE under the guard; the byte goes
to `BUF[LEN[5:0]]` and no other byte changes; LEN counts it modulo 2^29; a byte that does not fill the block is answered at
once; one that does starts the sequencer, to return to ABSORB. -/
def Obligations.PushAcceptance : Prop :=
  ∀ (s : State) (b : Byte), Ready s →
    (s.fsm ≠ .absorb → exec (.push b) s = commandError .seq s) ∧
    (s.fsm = .absorb → s.params.lenGuard = true → s.len = lastLen → exec (.push b) s = commandError .tooLarge s) ∧
    (s.fsm = .absorb → s.params.lenGuard = false ∨ s.len ≠ lastLen →
      ∃ t m, exec (.push b) s = .next t ∧
        m.read (fillLevel s.len).toNat = some b ∧
        (∀ a, a ≠ (fillLevel s.len).toNat → m.read a = s.buf.read a) ∧
        (fillLevel s.len ≠ 63#6 → t = respond 0x00#8 { s with buf := m, len := s.len + 1#29 }) ∧
        (fillLevel s.len = 63#6 →
          t = { s with
            buf := m
            len := s.len + 1#29
            fsm := .busy
            seq := { s.seq with sub := .load, pend2 := false, ret := .absorb }
            rspValid := false }))

/-- 40_padder.md R102, 10_state.md R25: the fill level is LEN mod 64 and LEN counts modulo 2^29, so the fill level counts
modulo 64 and the byte that wraps LEN completes a block. -/
def Obligations.FillLevelCounts : Prop :=
  (∀ l : BitVec 29, (fillLevel l).toNat = l.toNat % 64 ∧ (l + 1#29).toNat = (l.toNat + 1) % 2 ^ 29 ∧
    fillLevel (l + 1#29) = fillLevel l + 1#6) ∧ fillLevel lastLen = 63#6

/-- 40_padder.md R104: with LEN_GUARD false no PUSH raises TOO_LARGE; with it true a PUSH at LEN = 2^29 - 1 is not performed,
the message stays open, and FINAL is still accepted. -/
def Obligations.LengthGuard : Prop :=
  ∀ (s : State) (b : Byte), Ready s → s.fsm = .absorb →
    (s.params.lenGuard = false → ∃ t, exec (.push b) s = .next t ∧ t.errs = s.errs ∧ t.len = s.len + 1#29) ∧
    (s.params.lenGuard = true → s.len = lastLen →
      ∃ t, exec (.push b) s = .next t ∧ t.errs = s.errs.raise .tooLarge ∧ t.fsm = .absorb ∧ t.len = s.len ∧
        t.buf = s.buf ∧ t.h = s.h ∧ ∃ u, exec .final t = .next u ∧ u.errs = t.errs)

/-- 40_padder.md R110, R111, R112: what FINAL does at its accepting edge. SEQ outside ABSORB; in ABSORB the marker goes to
`BUF[f]`; for f ≤ 55 zeros fill bytes f+1 to 55 and the length field bytes 56 to 63; for f ≥ 56 zeros fill bytes f+1 to 63;
bytes below f, and the rest of the state, stay; the sequencer starts, to return to DONE, with PEND2 set when f ≥ 56. -/
def Obligations.FinalAcceptance : Prop :=
  ∀ s : State, Ready s →
    (s.fsm ≠ .absorb → exec .final s = commandError .seq s) ∧
    (s.fsm = .absorb →
      ∃ m, exec .final s = .next { s with
          buf := m
          fsm := .busy
          seq := { s.seq with sub := .load, pend2 := decide (56 ≤ (fillLevel s.len).toNat), ret := .done }
          rspValid := false } ∧
        (∀ a, a < (fillLevel s.len).toNat ∨ 64 ≤ a → m.read a = s.buf.read a) ∧
        m.read (fillLevel s.len).toNat = some 0x80#8 ∧
        ((fillLevel s.len).toNat ≤ 55 →
          (∀ a, (fillLevel s.len).toNat < a → a < 56 → m.read a = some 0x00#8) ∧
          ∀ i, i < 8 → m.read (56 + i) = (lengthFieldOf s.len)[i]?) ∧
        (56 ≤ (fillLevel s.len).toNat → ∀ a, (fillLevel s.len).toNat < a → a < 64 → m.read a = some 0x00#8))

/-- 40_padder.md R102, R103 at the transaction level: the PUSH that completes a block compresses BUF into H, returns to ABSORB
and then responds. That an unwritten H is read without a stop is the model's choice (log entry 2). -/
def Obligations.PushTransaction : Prop :=
  ∀ (s : State) (b : Byte), Ready s → s.fsm = .absorb →
    s.params.lenGuard = false ∨ s.len ≠ lastLen → BufFilled s.buf (fillLevel s.len).toNat →
    (fillLevel s.len ≠ 63#6 → transact (.push b) s = exec (.push b) s) ∧
    (fillLevel s.len = 63#6 →
      ∃ t block, s.buf.readBytes 63 0 = some block ∧ transact (.push b) s = .next t ∧
        t.h = Latch.put (compress s.h.val (block ++ [b])) ∧ t.buf.readBytes 64 0 = some (block ++ [b]) ∧
        t.len = s.len + 1#29 ∧ t.fsm = .absorb ∧ t.errs = s.errs ∧ t.params = s.params ∧ t.host = s.host ∧
        t.rsp = responseWord (statusWord t) 0x00#8 ∧ t.rspValid = true)

/-- 40_padder.md R110 at the transaction level: FINAL compresses the one or two closing blocks, goes to DONE, leaves LEN as it
was, and then responds. That an unwritten H is read without a stop is the model's choice (log entry 2). -/
def Obligations.FinalTransaction : Prop :=
  ∀ s : State, Ready s → s.fsm = .absorb → BufFilled s.buf (fillLevel s.len).toNat →
    ∃ t head last, s.buf.readBytes (fillLevel s.len).toNat 0 = some head ∧ transact .final s = .next t ∧
      ((fillLevel s.len).toNat ≤ 55 →
        last = head ++ 0x80#8 :: (List.replicate (55 - (fillLevel s.len).toNat) 0x00#8 ++ lengthFieldOf s.len) ∧
          t.h = Latch.put (compress s.h.val last)) ∧
      (56 ≤ (fillLevel s.len).toNat →
        last = List.replicate 56 0x00#8 ++ lengthFieldOf s.len ∧
          t.h = Latch.put (compress
            (compress s.h.val (head ++ 0x80#8 :: List.replicate (63 - (fillLevel s.len).toNat) 0x00#8)) last)) ∧
      t.buf.readBytes 64 0 = some last ∧ t.fsm = .done ∧ t.seq.pend2 = false ∧ t.len = s.len ∧ t.errs = s.errs ∧
      t.params = s.params ∧ t.host = s.host ∧ t.rsp = responseWord (statusWord t) 0x00#8 ∧ t.rspValid = true

/-! ## The error record -/

/-- 60_exceptions.md R224: an error sets ERR and ECODE when ERR is 0 and EOVF when it is 1; the command responds with DATA 0x00
and the updated status, and changes nothing else. -/
def Obligations.RaisingAnError : Prop :=
  ∀ (c : Cause) (s : State),
    (s.errs.err = false →
      commandError c s = .next (respond 0x00#8 { s with errs := { err := true, ecode := c, eovf := s.errs.eovf } })) ∧
    (s.errs.err = true →
      commandError c s = .next (respond 0x00#8 { s with errs := { err := true, ecode := s.errs.ecode, eovf := true } }))

/-- 60_exceptions.md R222: which command each FSM state accepts without error, in every state of a core that has been reset.
While BUSY every presented word is held: the step is the sequencer's own and the word stays presented. Otherwise an illegal or
reserved word raises its decode error when accepted. -/
def Obligations.LegalityTable : Prop :=
  ∀ s : State, s.live = true →
    (∀ (w : Word) (rest : List HostAct), s.fsm = .busy →
      step { s with host := .send w :: rest } = tick { s with host := .send w :: rest }) ∧
    (∀ i, s.fsm ≠ .busy → legalIn i s.fsm = false → exec i s = commandError .seq s) ∧
    (∀ i, s.fsm ≠ .busy → legalIn i s.fsm = true →
      (∃ t, exec i s = .next t ∧ t.errs = if i = .clrerr then ErrRec.clear else s.errs) ∨
      (∃ b, i = .push b ∧ s.params.lenGuard = true ∧ s.len = lastLen ∧ exec i s = commandError .tooLarge s)) ∧
    (∀ w : Word, s.fsm ≠ .busy → decode w = .illegal → acceptWord w s = commandError .illegalOpc s) ∧
    (∀ w : Word, s.fsm ≠ .busy → decode w = .reserved → acceptWord w s = commandError .rsvdBits s)

/-- 60_exceptions.md R226: over every step, an error record with ERR = 1 is cleared only by a reset edge or an accepted CLRERR;
otherwise the first cause stays and at most EOVF becomes 1. With ERR = 0 a step leaves the record, clears it, or records one
cause other than NONE. -/
def Obligations.ErrorRecordIsSticky : Prop :=
  ∀ s t : State, step s = .next t →
    (s.errs.err = true →
      (t.errs = ErrRec.clear ∧ (ResetEdge s ∨ Accepts s .clrerr)) ∨ t.errs = s.errs ∨
        t.errs = { s.errs with eovf := true }) ∧
    (s.errs.err = false →
      t.errs = s.errs ∨ (t.errs = ErrRec.clear ∧ (ResetEdge s ∨ Accepts s .clrerr)) ∨
        ∃ c, c ≠ .none ∧ t.errs = { s.errs with err := true, ecode := c })

/-! ## What may write each store -/

/-- 10_state.md R21: over every step H changes only by a reset edge, an accepted INIT, or the sequencer's FOLD. -/
def Obligations.HashWrites : Prop :=
  ∀ s t : State, step s = .next t →
    t.h = s.h ∨ (ResetEdge s ∧ t.h.get? = none) ∨ (Accepts s .init ∧ t.h = Latch.put s.params.hInit) ∨
      (Sequencing s .fold ∧ t.h = Latch.put (foldHash s.h.val s.vars.val))

/-- 10_state.md R24, R25, 20_memory.md R50: over every step BUF and LEN change only by a reset edge, an accepted INIT (LEN), an
accepted PUSH, an accepted FINAL (BUF), or a FOLD with PEND2 set (BUF), each as its rule says. -/
def Obligations.BufferAndLengthWrites : Prop :=
  ∀ s t : State, step s = .next t →
    (t.buf = s.buf ∧ t.len = s.len) ∨ (ResetEdge s ∧ (∀ a, t.buf.read a = none) ∧ t.len = 0#29) ∨
      (Accepts s .init ∧ t.buf = s.buf ∧ t.len = 0#29) ∨
      (∃ b, Accepts s (.push b) ∧ t.len = s.len + 1#29 ∧
        ∀ a, t.buf.read a = if a = (fillLevel s.len).toNat then some b else s.buf.read a) ∨
      (Accepts s .final ∧ t.len = s.len ∧ ∀ a, a < (fillLevel s.len).toNat ∨ 64 ≤ a → t.buf.read a = s.buf.read a) ∨
      (Sequencing s .fold ∧ s.seq.pend2 = true ∧ t.len = s.len ∧
        ∀ a, t.buf.read a = if a < 64 then (secondBlock s.len)[a]? else s.buf.read a)

/-- 10_state.md R22, R23: over every step a..h change only by a reset edge, LOAD or ROUND, and W only by a reset edge or the
sequencer. That FOLD discards W is the model's reading of R23 and R146 (log entry 8). -/
def Obligations.WorkingStateWrites : Prop :=
  ∀ s t : State, step s = .next t →
    (t.vars = s.vars ∨ (ResetEdge s ∧ t.vars.get? = none) ∨ Sequencing s .load ∨ Sequencing s .round) ∧
    (t.w = s.w ∨ (ResetEdge s ∧ ∀ u, schedRead t.w u = none) ∨ Sequencing s .load ∨ Sequencing s .round ∨
      Sequencing s .fold)

/-- 00_scope.md R7, 10_state.md R29: no step changes the parameters, so LGUARD is hardwired; and once reset, a core stays so. -/
def Obligations.ParametersConstant : Prop :=
  ∀ s t : State, step s = .next t → t.params = s.params ∧ (s.live = true → t.live = true)

/-! ## Invariants -/

/-- 10_state.md R33, R34: the reset state, and the power-on state, are sound, whatever the parameters and the host. The
fields at power-on are placeholders of the model's choice (log entry 4). -/
def Obligations.ResetStateIsSound : Prop :=
  ∀ (p : Params) (host : List HostAct),
    Sound { State.resetOf p with host := host } ∧ Sound (State.powerOn p host) ∧ Sound State.reset

/-- 10_state.md R33, R34: every step keeps the invariant, from every sound state. -/
def Obligations.StepKeepsInvariant : Prop := ∀ s t : State, Sound s → step s = .next t → Sound t

/-- 10_state.md R33: a step of a sound state reads no unwritten cell of H, a..h, W or BUF, and so does not fault; and, in any
state, the model fault is a LOAD that reads an unwritten byte of BUF. Reading an unwritten REGISTER is no fault: the machine goes
on with a word that nothing chooses (log entry 2). -/
def Obligations.SoundStepsNeverFault : Prop :=
  (∀ s : State, Sound s → Safe (step s) ∧ ∀ st, ¬ ReadsUnwritten s st) ∧
  (∀ (s : State) (r : Fault), step s = .fault r → ReadsUnwritten s .buf) ∧
  (∀ s : State, s.seq.sub = .load → ¬ BufFilled s.buf 64 → tick s = .fault .unwritten)

/-- 10_state.md R33: "No command sequence allowed by R222 reads an unwritten cell": no run from reset or power-on, with any
parameters and any host, ends in the model fault or comes to a state whose next edge reads an unwritten cell of any store. -/
def Obligations.RunsFromResetNeverFault : Prop :=
  ∀ (p : Params) (host : List HostAct) (n : Nat),
    (Safe (Host.Core.run Sys2Proof.core n { State.resetOf p with host := host }) ∧
      ∀ t, Host.Core.run Sys2Proof.core n { State.resetOf p with host := host } = .next t →
        ∀ st, ¬ ReadsUnwritten t st) ∧
    (Safe (Host.Core.run Sys2Proof.core n (State.powerOn p host)) ∧
      ∀ t, Host.Core.run Sys2Proof.core n (State.powerOn p host) = .next t → ∀ st, ¬ ReadsUnwritten t st)

/-- 43_compression.md R175: from every sound BUSY state the sequencer leaves BUSY within 132 of its own steps, for RET. The
bound counts the model's steps, which are its choice (log entry 6). -/
def Obligations.BusyEnds : Prop :=
  ∀ s : State, Sound s → s.fsm = .busy → ∃ t, drain maxBusySteps s = .next t ∧ t.fsm = s.seq.ret.fsm ∧ t.fsm ≠ .busy

/-! ## The sequencer and the transaction level -/

/-- 43_compression.md R171: LOAD, as its pseudocode has it. That an unwritten H is read without a stop is the model's choice (log
entry 2). -/
def Obligations.LoadStep : Prop :=
  ∀ (s : State) (bytes : List Byte), s.seq.sub = .load → s.buf.readBytes 64 0 = some bytes →
    ∃ t, tick s = .next t ∧
      t.vars.get? = some ⟨s.h.val[0], s.h.val[1], s.h.val[2], s.h.val[3],
        s.h.val[4], s.h.val[5], s.h.val[6], s.h.val[7]⟩ ∧
      (∀ u : BitVec 6, u.toNat < 16 →
        schedRead t.w u = some (bytes.getD (4 * u.toNat) 0#8 ++ bytes.getD (4 * u.toNat + 1) 0#8 ++
          bytes.getD (4 * u.toNat + 2) 0#8 ++ bytes.getD (4 * u.toNat + 3) 0#8)) ∧
      (∀ u : BitVec 6, 16 ≤ u.toNat → schedRead t.w u = schedRead s.w u ∧ schedWord t.w u = schedWord s.w u) ∧
      t = { s with
        vars := t.vars
        w := t.w
        seq := { s.seq with sub := .round, tcnt := 0#6 }
        rspValid := false }

/-- 43_compression.md R172: ROUND, for t < 16 and for t ≥ 16. That unwritten words of a..h and W are read without a stop is the
model's choice (log entry 2). -/
def Obligations.RoundStep : Prop :=
  ∀ s : State, s.seq.sub = .round →
    (s.seq.tcnt.toNat < 16 →
      tick s = .next { s with
        vars := Latch.put (hashRound s.seq.tcnt (schedWord s.w s.seq.tcnt) s.vars.val)
        seq := { s.seq with tcnt := s.seq.tcnt + 1#6 }
        rspValid := false }) ∧
    (16 ≤ s.seq.tcnt.toNat →
      ∃ t x, tick s = .next t ∧
        x = schedWord s.w (s.seq.tcnt - 16#6) + smallSigma0 (schedWord s.w (s.seq.tcnt - 15#6)) +
          schedWord s.w (s.seq.tcnt - 7#6) + smallSigma1 (schedWord s.w (s.seq.tcnt - 2#6)) ∧
        schedRead t.w s.seq.tcnt = some x ∧
        (∀ u, u ≠ s.seq.tcnt → schedRead t.w u = schedRead s.w u ∧ schedWord t.w u = schedWord s.w u) ∧
        t.vars.get? = some (hashRound s.seq.tcnt x s.vars.val) ∧
        (s.seq.tcnt ≠ 63#6 → t.seq = { s.seq with tcnt := s.seq.tcnt + 1#6 }) ∧
        (s.seq.tcnt = 63#6 → t.seq = { s.seq with sub := .fold }) ∧
        t = { s with vars := t.vars, w := t.w, seq := t.seq, rspValid := false })

/-- 43_compression.md R173, R174, 40_padder.md R112: FOLD, with the second closing block when PEND2 is 1, and the end of the
command when it is 0. That FOLD discards W is the model's reading of R23 and R146 (log entry 8); that unwritten H and a..h are
read without a stop is its choice (log entry 2). -/
def Obligations.FoldStep : Prop :=
  ∀ s : State, s.seq.sub = .fold →
    ∃ t, tick s = .next t ∧
      t.h.get? = some #v[s.h.val[0] + s.vars.val.a, s.h.val[1] + s.vars.val.b, s.h.val[2] + s.vars.val.c,
        s.h.val[3] + s.vars.val.d, s.h.val[4] + s.vars.val.e, s.h.val[5] + s.vars.val.f, s.h.val[6] + s.vars.val.g,
        s.h.val[7] + s.vars.val.h] ∧
      (s.seq.pend2 = true →
        (∀ a, a < 56 → t.buf.read a = some 0x00#8) ∧ (∀ i, i < 8 → t.buf.read (56 + i) = (lengthFieldOf s.len)[i]?) ∧
        (∀ a, 64 ≤ a → t.buf.read a = s.buf.read a) ∧
        t = { s with
          h := t.h
          w := unwrittenSchedule
          buf := t.buf
          seq := { s.seq with pend2 := false, sub := .load }
          rspValid := false }) ∧
      (s.seq.pend2 = false →
        t = respond 0x00#8 { s with h := t.h, w := unwrittenSchedule, fsm := s.seq.ret.fsm })

/-- 43_compression.md R176: LOAD, 64 ROUND and FOLD compute exactly `compress(H, BUF)`, for one block and for the first of two;
and the two example values of the rule. That an unwritten H is read without a stop is the model's choice (log entry 2). -/
def Obligations.SequencerComputesCompress : Prop :=
  (∀ (s : State) (block : List Byte), s.fsm = .busy → s.seq.sub = .load → s.buf.readBytes 64 0 = some block →
    ∃ t, drain 66 s = .next t ∧ t.h = Latch.put (compress s.h.val block) ∧ t.len = s.len ∧ t.errs = s.errs ∧
      t.params = s.params ∧ t.host = s.host ∧ t.live = s.live ∧ t.seq.ret = s.seq.ret ∧ t.seq.pend2 = false ∧
      (s.seq.pend2 = false →
        t.fsm = s.seq.ret.fsm ∧ t.buf = s.buf ∧ t.rsp = responseWord (statusWord t) 0x00#8 ∧ t.rspValid = true) ∧
      (s.seq.pend2 = true →
        t.fsm = .busy ∧ t.seq.sub = .load ∧ t.buf.readBytes 64 0 = some (secondBlock s.len) ∧ t.rsp = s.rsp)) ∧
  compress (Vector.replicate 8 0#32) (List.replicate 64 0x00#8) =
    #v[0x22f64091#32, 0x07bd1990#32, 0xdea91bc9#32, 0x7c12cfb4#32, 0x8502ec5e#32, 0x91263616#32, 0x3896e91f#32,
      0x67ef3b76#32] ∧
  compress (Vector.replicate 8 0#32) (pad [0x61#8, 0x62#8, 0x63#8]) =
    #v[0x7d98cada#32, 0x0d6a22c1#32, 0x1de287c8#32, 0x99837535#32, 0xe12836aa#32, 0xdd386241#32, 0x39202c3c#32,
      0x2009e644#32]

/-- 00_scope.md R11, 20_memory.md R56: the clock edges of an accepted command, with later commands held behind it, compose to
the transaction. How many edges a command takes is the model's choice (log entry 6). -/
def Obligations.EdgesComposeToTransaction : Prop :=
  ∀ (s t : State) (i : Instr) (ws : List Word), Ready s → s.host = .send (encode i) :: ws.map .send →
    transact i { s with host := ws.map .send } = .next t →
    ∃ n, n ≤ 1 + maxBusySteps ∧ Host.Core.run Sys2Proof.core n s = .next t

/-- 10_state.md R34 (I1, I2): after INIT and the bytes of a message, H is the compression of its complete blocks from H_INIT and
BUF holds the bytes after them, in order. -/
def Obligations.AbsorbedPrefix : Prop :=
  ∀ (s : State) (M : List Byte), Ready s → s.params.lenGuard = false ∨ M.length < 2 ^ 29 →
    ∃ t, transactAll (.init :: M.map .push) s = .next t ∧ t.fsm = .absorb ∧ t.len = BitVec.ofNat 29 M.length ∧
      t.h = Latch.put (compressBlocks (M.length / 64) s.params.hInit M) ∧
      t.buf.readBytes (M.length % 64) 0 = some (M.drop (64 * (M.length / 64))) ∧ t.errs = s.errs ∧
      t.params = s.params

/-- 40_padder.md R113, 43_compression.md R177, 10_state.md R34 (I3): INIT, one PUSH per byte of M, and FINAL leave
`H = Hfinal(H_INIT, pad(M))` in DONE, for every message and every H_INIT, and RDHEX then answers the digest. -/
def Obligations.MessageDigest : Prop :=
  ∀ (s : State) (M : List Byte), Ready s → s.params.lenGuard = false ∨ M.length < 2 ^ 29 →
    ∃ t, transactAll (messageCommands M) s = .next t ∧ t.fsm = .done ∧
      t.h = Latch.put (hfinal s.params.hInit (pad M)) ∧ t.len = BitVec.ofNat 29 M.length ∧ t.errs = s.errs ∧
      ∀ idx : BitVec 6,
        exec (.rdhex idx) t = .next (respond ((digest s.params.hInit M).getD idx.toNat 0#8) t)

/-- 10_state.md R34 (I5): no message state survives INIT. Two cores with the same parameters and error record, in whatever
states, that hash the same message agree on H, LEN, FSM, BUF, the error record and RSP. -/
def Obligations.InitForgetsEarlierMessage : Prop :=
  ∀ (s₁ s₂ t₁ t₂ : State) (M : List Byte), Ready s₁ → Ready s₂ → s₁.params = s₂.params → s₁.errs = s₂.errs →
    s₁.params.lenGuard = false ∨ M.length < 2 ^ 29 →
    transactAll (messageCommands M) s₁ = .next t₁ → transactAll (messageCommands M) s₂ = .next t₂ →
    t₁.h = t₂.h ∧ t₁.len = t₂.len ∧ t₁.fsm = t₂.fsm ∧ t₁.errs = t₂.errs ∧ t₁.rsp = t₂.rsp ∧
      ∀ a, a < 64 → t₁.buf.read a = t₂.buf.read a

/-! ## The algorithm -/

/-- 40_padder.md R100, R101: the padded length is the smallest multiple of 64 that is at least L + 9, and the source's boundary
cases. -/
def Obligations.PaddedLengthIsSmallest : Prop :=
  (∀ L : Nat, paddedLength L % 64 = 0 ∧ L + 9 ≤ paddedLength L ∧
    (∀ P, P % 64 = 0 → L + 9 ≤ P → paddedLength L ≤ P) ∧ nblocks L = (L + 8) / 64 + 1) ∧
  paddedLength 55 = 64 ∧ paddedLength 56 = 128 ∧ paddedLength 64 = 128

/-- 40_padder.md R105, R106: the padded message is a positive number of whole blocks; it begins with the message; the byte after
it is 0x80; the bytes from there to the last eight are zero; and the last eight are the length field. -/
def Obligations.PaddedMessageShape : Prop :=
  ∀ M : List Byte,
    (pad M).length = paddedLength M.length ∧ 0 < (pad M).length ∧ (pad M).length % 64 = 0 ∧
    (pad M).take M.length = M ∧ (pad M)[M.length]? = some 0x80#8 ∧
    (∀ i, M.length < i → i < (pad M).length - 8 → (pad M)[i]? = some 0x00#8) ∧
    (pad M).drop ((pad M).length - 8) = lengthField M.length

/-- 40_padder.md R107, R108, R109: B32 is LEN followed by three zero bits and equals 8*L modulo 2^32; the field FINAL builds
from LEN is the length field of every message length; its last four bytes repeat its first four; it is the little-endian bit
length modulo 2^32; lengths 2^29 bytes apart share it; and the corner cases of the rule. -/
def Obligations.LengthFieldRule : Prop :=
  (∀ l : BitVec 29, bitLength32 l = l ++ 0#3) ∧ (∀ L : Nat, (bitLength32 (BitVec.ofNat 29 L)).toNat = 8 * L % 2 ^ 32) ∧
  (∀ L : Nat, lengthFieldOf (BitVec.ofNat 29 L) = lengthField L) ∧
  (∀ L : Nat, (lengthField L).length = 8 ∧ (lengthField L).drop 4 = (lengthField L).take 4) ∧
  (∀ L i : Nat, i < 4 → (lengthField L)[i]? = some (BitVec.ofNat 8 (8 * L % 2 ^ 32 / 256 ^ i))) ∧
  (∀ L k : Nat, lengthField (L + 2 ^ 29 * k) = lengthField L) ∧
  lengthField 0 = List.replicate 8 0x00#8 ∧
  lengthField 3 = [0x18#8, 0#8, 0#8, 0#8, 0x18#8, 0#8, 0#8, 0#8] ∧
  lengthField (2 ^ 29) = List.replicate 8 0x00#8 ∧
  lengthField 0x02468ACF = [0x78#8, 0x56#8, 0x34#8, 0x12#8, 0x78#8, 0x56#8, 0x34#8, 0x12#8]

/-- 42_schedule.md R140, R141: bit i of ROTR(x, n) is bit (i + n) mod 32 of x; SHR(x, n) is floor(x / 2^n); and the rules'
corner cases and examples. -/
def Obligations.RotateAndShift : Prop :=
  (∀ (x : Word) (n i : Nat), 0 < n → n < 32 → i < 32 → (rotr x n).getLsbD i = x.getLsbD ((i + n) % 32)) ∧
  (∀ (x : Word) (n : Nat), (shr x n).toNat = x.toNat / 2 ^ n) ∧
  (∀ n : Nat, rotr 0#32 n = 0#32) ∧ (∀ n : Nat, 0 < n → n < 32 → rotr 0xFFFFFFFF#32 n = 0xFFFFFFFF#32) ∧
  rotr 0x00000001#32 7 = 0x02000000#32 ∧ rotr 0x12345678#32 7 = 0xF02468AC#32 ∧
  shr 0x80000000#32 3 = 0x10000000#32 ∧ shr 0xFFFFFFFF#32 10 = 0x003FFFFF#32 ∧ shr 0x12345678#32 3 = 0x02468ACF#32

/-- 42_schedule.md R142, R143: s0 and s1 are the XOR of their two rotations and their shift, bit by bit; both are XOR-linear;
and the rules' corner cases and examples. -/
def Obligations.SmallSigmas : Prop :=
  (∀ (x : Word) (i : Nat), i < 32 →
    (smallSigma0 x).getLsbD i =
      ((x.getLsbD ((i + 7) % 32) ^^ x.getLsbD ((i + 18) % 32)) ^^ x.getLsbD (i + 3)) ∧
    (smallSigma1 x).getLsbD i =
      ((x.getLsbD ((i + 17) % 32) ^^ x.getLsbD ((i + 19) % 32)) ^^ x.getLsbD (i + 10))) ∧
  (∀ x y : Word, smallSigma0 (x ^^^ y) = smallSigma0 x ^^^ smallSigma0 y) ∧
  (∀ x y : Word, smallSigma1 (x ^^^ y) = smallSigma1 x ^^^ smallSigma1 y) ∧
  [0#32, 0xFFFFFFFF#32, 0x80000000#32, 0x00000001#32, 0x61626380#32, 0x12345678#32].map smallSigma0 =
    [0#32, 0x1FFFFFFF#32, 0x11002000#32, 0x02004000#32, 0x940E90EF#32, 0xE7FCE6EE#32] ∧
  [0#32, 0xFFFFFFFF#32, 0x80000000#32, 0x00000001#32, 0x61626380#32, 0x12345678#32].map smallSigma1 =
    [0#32, 0x003FFFFF#32, 0x00205000#32, 0x0000A000#32, 0x7DA86405#32, 0xA1F78649#32]

/-- 43_compression.md R160, R161: S1 and S0 are the XOR of their three rotations, bit by bit, with the rules' corner cases and
examples. -/
def Obligations.BigSigmas : Prop :=
  (∀ (x : Word) (i : Nat), i < 32 →
    (bigSigma1 x).getLsbD i =
      ((x.getLsbD ((i + 6) % 32) ^^ x.getLsbD ((i + 11) % 32)) ^^ x.getLsbD ((i + 25) % 32)) ∧
    (bigSigma0 x).getLsbD i =
      ((x.getLsbD ((i + 2) % 32) ^^ x.getLsbD ((i + 13) % 32)) ^^ x.getLsbD ((i + 22) % 32))) ∧
  [0#32, 0xFFFFFFFF#32, 0x00000001#32, 0x61626380#32, 0x12345678#32].map bigSigma1 =
    [0#32, 0xFFFFFFFF#32, 0x04200080#32, 0xC0B865F2#32, 0x3561ABDA#32] ∧
  [0#32, 0xFFFFFFFF#32, 0x00000001#32, 0x61626380#32, 0x12345678#32].map bigSigma0 =
    [0#32, 0xFFFFFFFF#32, 0x40080400#32, 0x8DD59276#32, 0x66146474#32]

/-- 43_compression.md R162, R163: each bit of Ch comes from f where e is 1 and from g where e is 0; each bit of Maj is the
majority of the three; and the rules' corner cases and examples. -/
def Obligations.ChoiceAndMajority : Prop :=
  (∀ (e f g : Word) (i : Nat), (choice e f g).getLsbD i = if e.getLsbD i then f.getLsbD i else g.getLsbD i) ∧
  (∀ (a b c : Word) (i : Nat), (majority a b c).getLsbD i =
    decide (2 ≤ (a.getLsbD i).toNat + (b.getLsbD i).toNat + (c.getLsbD i).toNat)) ∧
  (∀ f g : Word, choice 0xFFFFFFFF#32 f g = f ∧ choice 0#32 f g = g ∧ choice g f f = f) ∧
  (∀ x y : Word, majority x x y = x) ∧
  choice 0xFF00FF00#32 0x12345678#32 0x9ABCDEF0#32 = 0x12BC56F0#32 ∧
  majority 0xFF00FF00#32 0x0FF00FF0#32 0x00FFFF00#32 = 0x0FF0FF00#32

/-- 43_compression.md R164, R165, R170: T1 and T2 are sums modulo 2^32; a round updates all eight variables at once from the
values before it; and the rules' corner cases and examples. -/
def Obligations.RoundUpdatesVariables : Prop :=
  (∀ (t : BitVec 6) (x : Word) (v : Vars), ∃ t1 t2 : Word,
    t1.toNat = (v.h.toNat + (bigSigma1 v.e).toNat + (choice v.e v.f v.g).toNat + (Rom.k t).toNat + x.toNat) % 2 ^ 32 ∧
    t2.toNat = ((bigSigma0 v.a).toNat + (majority v.a v.b v.c).toNat) % 2 ^ 32 ∧
    hashRound t x v = ⟨t1 + t2, v.a, v.b, v.c, v.d + t1, v.e, v.f, v.g⟩) ∧
  hashRound 0#6 0#32 ⟨0#32, 0#32, 0#32, 0#32, 0#32, 0#32, 0#32, 0#32⟩ =
    ⟨0xd76aa478#32, 0#32, 0#32, 0#32, 0xd76aa478#32, 0#32, 0#32, 0#32⟩ ∧
  hashRound 0#6 0#32 ⟨0xffffffff#32, 0xffffffff#32, 0xffffffff#32, 0xffffffff#32, 0xffffffff#32, 0xffffffff#32,
      0xffffffff#32, 0xffffffff#32⟩ =
    ⟨0xd76aa473#32, 0xffffffff#32, 0xffffffff#32, 0xffffffff#32, 0xd76aa474#32, 0xffffffff#32, 0xffffffff#32,
      0xffffffff#32⟩ ∧
  hashRound 0#6 0x61626380#32 ⟨0x6a09e667#32, 0xbb67ae85#32, 0x3c6ef372#32, 0xa54ff53a#32, 0x510e527f#32, 0x9b05688c#32,
      0x1f83d9ab#32, 0x5be0cd19#32⟩ =
    ⟨0xf24b60ad#32, 0x6a09e667#32, 0xbb67ae85#32, 0x3c6ef372#32, 0x8f0abb02#32, 0x510e527f#32, 0x9b05688c#32,
      0x1f83d9ab#32⟩

/-- 20_memory.md R52, 42_schedule.md R144, R145: the schedule of a block has 64 words; the first sixteen are the block's
big-endian words; each later one is the recurrence; the all-zero block gives only zeros; and the "abc" block's W[0..16] and
W[63]. -/
def Obligations.ScheduleWords : Prop :=
  (∀ block : List Byte, block.length = 64 →
    (scheduleOf block).length = 64 ∧
    (∀ t, t < 16 → (scheduleOf block)[t]? =
      some (block.getD (4 * t) 0#8 ++ block.getD (4 * t + 1) 0#8 ++ block.getD (4 * t + 2) 0#8 ++
        block.getD (4 * t + 3) 0#8)) ∧
    (∀ t, 16 ≤ t → t < 64 → (scheduleOf block)[t]? =
      some ((scheduleOf block).getD (t - 16) 0#32 + smallSigma0 ((scheduleOf block).getD (t - 15) 0#32) +
        (scheduleOf block).getD (t - 7) 0#32 + smallSigma1 ((scheduleOf block).getD (t - 2) 0#32)))) ∧
  scheduleOf (List.replicate 64 0x00#8) = List.replicate 64 0#32 ∧
  (scheduleOf (pad [0x61#8, 0x62#8, 0x63#8])).take 17 =
    0x61626380#32 :: (List.replicate 13 0#32 ++ [0x18000000#32, 0x18000000#32, 0x61687280#32]) ∧
  (scheduleOf (pad [0x61#8, 0x62#8, 0x63#8]))[63]? = some 0x1B9C2284#32

/-- 41_round_constants.md R131, R132: every word of the ROM is the floor of 2^32 * |sin(t + 1)|, with the exact sine (R132's third
computation; R131's binary64 evaluation gives the same words by the margins of R132). -/
def Obligations.RoundConstantsAreSine : Prop :=
  ∀ t : BitVec 6, ((Rom.k t).toNat : ℤ) = ⌊(2 : ℝ) ^ 32 * |Real.sin ((t.toNat : ℝ) + 1)|⌋

/-- 44_formatter.md R190, R191: character i of the rendering is the ASCII code of digit i mod 8, the most significant first, of
word i div 8; there are 64 characters; and the rules' examples. -/
def Obligations.HexRendering : Prop :=
  (∀ (h : Vector Word 8) (i : Nat) (hi : i < 64), ∃ n, n = (h[i / 8]'(by omega)).toNat / 16 ^ (7 - i % 8) % 16 ∧
    (hexDigits h)[i]? = some (BitVec.ofNat 8 (if n < 10 then 0x30 + n else 0x57 + n))) ∧
  (∀ h : Vector Word 8, (hexDigits h).length = 64) ∧
  hexDigits (Vector.replicate 8 0xA#32) =
    (List.replicate 8 (List.replicate 7 0x30#8 ++ [0x61#8])).flatten ∧
  (hexDigits #v[0x0123abcd#32, 0#32, 0#32, 0#32, 0#32, 0#32, 0#32, 0xFFFFFFFF#32]) =
    [0x30#8, 0x31#8, 0x32#8, 0x33#8, 0x61#8, 0x62#8, 0x63#8, 0x64#8] ++ List.replicate 48 0x30#8 ++
      List.replicate 8 0x66#8

/-- 44_formatter.md R193: the rendering is total, has 64 characters of 0-9a-f, and is injective on states. -/
def Obligations.HexIsInjective : Prop :=
  (∀ h : Vector Word 8, (hexDigits h).length = 64) ∧
  (∀ (h : Vector Word 8) (b : Byte), b ∈ hexDigits h →
    (0x30 ≤ b.toNat ∧ b.toNat ≤ 0x39) ∨ (0x61 ≤ b.toNat ∧ b.toNat ≤ 0x66)) ∧
  ∀ h₁ h₂ : Vector Word 8, hexDigits h₁ = hexDigits h₂ → h₁ = h₂

/-! ## Text -/

/-- 30_encoding.md R77, 92_eei_decisions.md D2: a text is encoded as UTF-8. R77 names the encoding and no file of the spec gives
its byte patterns: they are PRESUMED from the Unicode standard (log entry 11). Each code point is given by one to four bytes,
the lead byte and 6 bits in each byte after it, and the bytes are those of Lean's own UTF-8 encoder. -/
def Obligations.TextEncodingIsUtf8 : Prop :=
  ∀ c : Char,
    (c.toNat < 0x80 → ∃ b : Byte, utf8 c = [b] ∧ b.toNat = c.toNat) ∧
    (0x80 ≤ c.toNat → c.toNat < 0x800 → ∃ b0 b1 : Byte, utf8 c = [b0, b1] ∧ b0 >>> 5 = 0x06#8 ∧ b1 >>> 6 = 0x02#8 ∧
      c.toNat = b0.toNat % 32 * 64 + b1.toNat % 64) ∧
    (0x800 ≤ c.toNat → c.toNat < 0x10000 → ∃ b0 b1 b2 : Byte, utf8 c = [b0, b1, b2] ∧ b0 >>> 4 = 0x0E#8 ∧
      b1 >>> 6 = 0x02#8 ∧ b2 >>> 6 = 0x02#8 ∧
      c.toNat = b0.toNat % 16 * 4096 + b1.toNat % 64 * 64 + b2.toNat % 64) ∧
    (0x10000 ≤ c.toNat → ∃ b0 b1 b2 b3 : Byte, utf8 c = [b0, b1, b2, b3] ∧ b0 >>> 3 = 0x1E#8 ∧ b1 >>> 6 = 0x02#8 ∧
      b2 >>> 6 = 0x02#8 ∧ b3 >>> 6 = 0x02#8 ∧
      c.toNat = b0.toNat % 8 * 262144 + b1.toNat % 64 * 4096 + b2.toNat % 64 * 64 + b3.toNat % 64) ∧
    (utf8 c).map BitVec.toNat = (String.utf8EncodeChar c).map UInt8.toNat

/-! ## Reads before the first reset -/

/-- 30_encoding.md R80, R82, 60_exceptions.md R221 (93 X8): what a read before the first reset can show, whatever the free bits are.
Of a status word bits 15 to 10 are 0, LGUARD is the parameter, FSM is one of its four codes, and ECODE is at most 4 and is 0 exactly
when ERR is 0; of a response word bits 15 to 8 are 0, STAT is such a status word and DATA is the free byte. Nothing else is fixed:
each FSM value goes with each such error record, and each such status word with each DATA. That these limits hold before the first
reset is DEDUCED, and that nothing narrower does is the model's choice (log entry 4). -/
def Obligations.UndefinedStatusFields : Prop :=
  ∀ s : State,
    (∀ x : BitVec 16,
      (undefinedStatus x s).extractLsb' 10 6 = 0#6 ∧ (undefinedStatus x s).getLsbD 9 = s.params.lenGuard ∧
      ((undefinedStatus x s).extractLsb' 0 3).toNat < 4 ∧ ((undefinedStatus x s).extractLsb' 4 4).toNat < 5 ∧
      ((undefinedStatus x s).extractLsb' 4 4 = 0#4 ↔ (undefinedStatus x s).getLsbD 3 = false)) ∧
    (∀ x : Word,
      (undefinedResponse x s).extractLsb' 8 8 = 0#8 ∧ (undefinedResponse x s).extractLsb' 0 8 = x.extractLsb' 0 8 ∧
      (undefinedResponse x s).extractLsb' 16 16 = undefinedStatus (x.extractLsb' 16 16) s) ∧
    (∀ (f : Fsm) (e : ErrRec), (e.ecode = .none ↔ e.err = false) →
      (∃ x, undefinedStatus x s = statusWord { s with fsm := f, errs := e }) ∧
      ∀ d : Byte, ∃ x, undefinedResponse x s = responseWord (statusWord { s with fsm := f, errs := e }) d)
end

