-- ==== Sys2Proof/Laws/State.lean ====
section
/-! SUPPORT. One lemma per field per named update of the state, so that no later proof unfolds a record update. -/

namespace Sys2Proof.Machine

/-! `respond` -/

@[simp] theorem respond_params (d : Byte) (s : State) : (respond d s).params = s.params := rfl
@[simp] theorem respond_live (d : Byte) (s : State) : (respond d s).live = s.live := rfl
@[simp] theorem respond_fsm (d : Byte) (s : State) : (respond d s).fsm = s.fsm := rfl
@[simp] theorem respond_seq (d : Byte) (s : State) : (respond d s).seq = s.seq := rfl
@[simp] theorem respond_len (d : Byte) (s : State) : (respond d s).len = s.len := rfl
@[simp] theorem respond_h (d : Byte) (s : State) : (respond d s).h = s.h := rfl
@[simp] theorem respond_vars (d : Byte) (s : State) : (respond d s).vars = s.vars := rfl
@[simp] theorem respond_w (d : Byte) (s : State) : (respond d s).w = s.w := rfl
@[simp] theorem respond_buf (d : Byte) (s : State) : (respond d s).buf = s.buf := rfl
@[simp] theorem respond_errs (d : Byte) (s : State) : (respond d s).errs = s.errs := rfl
@[simp] theorem respond_rsp (d : Byte) (s : State) : (respond d s).rsp = responseWord (statusWord s) d := rfl
@[simp] theorem respond_rspValid (d : Byte) (s : State) : (respond d s).rspValid = true := rfl
@[simp] theorem respond_host (d : Byte) (s : State) : (respond d s).host = s.host := rfl
@[simp] theorem respond_busData (d : Byte) (s : State) : (respond d s).busData = s.busData := rfl
@[simp] theorem respond_undefReads (d : Byte) (s : State) : (respond d s).undefReads = s.undefReads := rfl

/-! `raiseError` -/

@[simp] theorem raiseError_params (c : Cause) (s : State) : (raiseError c s).params = s.params := rfl
@[simp] theorem raiseError_live (c : Cause) (s : State) : (raiseError c s).live = s.live := rfl
@[simp] theorem raiseError_fsm (c : Cause) (s : State) : (raiseError c s).fsm = s.fsm := rfl
@[simp] theorem raiseError_seq (c : Cause) (s : State) : (raiseError c s).seq = s.seq := rfl
@[simp] theorem raiseError_len (c : Cause) (s : State) : (raiseError c s).len = s.len := rfl
@[simp] theorem raiseError_h (c : Cause) (s : State) : (raiseError c s).h = s.h := rfl
@[simp] theorem raiseError_vars (c : Cause) (s : State) : (raiseError c s).vars = s.vars := rfl
@[simp] theorem raiseError_w (c : Cause) (s : State) : (raiseError c s).w = s.w := rfl
@[simp] theorem raiseError_buf (c : Cause) (s : State) : (raiseError c s).buf = s.buf := rfl
@[simp] theorem raiseError_errs (c : Cause) (s : State) : (raiseError c s).errs = s.errs.raise c := rfl
@[simp] theorem raiseError_rsp (c : Cause) (s : State) : (raiseError c s).rsp = s.rsp := rfl
@[simp] theorem raiseError_rspValid (c : Cause) (s : State) : (raiseError c s).rspValid = s.rspValid := rfl
@[simp] theorem raiseError_host (c : Cause) (s : State) : (raiseError c s).host = s.host := rfl
@[simp] theorem raiseError_busData (c : Cause) (s : State) : (raiseError c s).busData = s.busData := rfl
@[simp] theorem raiseError_undefReads (c : Cause) (s : State) : (raiseError c s).undefReads = s.undefReads := rfl

/-! `startBlock` -/

@[simp] theorem startBlock_params (p : Bool) (r : Ret) (s : State) : (startBlock p r s).params = s.params := rfl
@[simp] theorem startBlock_live (p : Bool) (r : Ret) (s : State) : (startBlock p r s).live = s.live := rfl
@[simp] theorem startBlock_fsm (p : Bool) (r : Ret) (s : State) : (startBlock p r s).fsm = .busy := rfl
@[simp] theorem startBlock_seq (p : Bool) (r : Ret) (s : State) : (startBlock p r s).seq = { s.seq with sub := .load, pend2 := p, ret := r } := rfl
@[simp] theorem startBlock_len (p : Bool) (r : Ret) (s : State) : (startBlock p r s).len = s.len := rfl
@[simp] theorem startBlock_h (p : Bool) (r : Ret) (s : State) : (startBlock p r s).h = s.h := rfl
@[simp] theorem startBlock_vars (p : Bool) (r : Ret) (s : State) : (startBlock p r s).vars = s.vars := rfl
@[simp] theorem startBlock_w (p : Bool) (r : Ret) (s : State) : (startBlock p r s).w = s.w := rfl
@[simp] theorem startBlock_buf (p : Bool) (r : Ret) (s : State) : (startBlock p r s).buf = s.buf := rfl
@[simp] theorem startBlock_errs (p : Bool) (r : Ret) (s : State) : (startBlock p r s).errs = s.errs := rfl
@[simp] theorem startBlock_rsp (p : Bool) (r : Ret) (s : State) : (startBlock p r s).rsp = s.rsp := rfl
@[simp] theorem startBlock_rspValid (p : Bool) (r : Ret) (s : State) : (startBlock p r s).rspValid = false := rfl
@[simp] theorem startBlock_host (p : Bool) (r : Ret) (s : State) : (startBlock p r s).host = s.host := rfl
@[simp] theorem startBlock_busData (p : Bool) (r : Ret) (s : State) : (startBlock p r s).busData = s.busData := rfl
@[simp] theorem startBlock_undefReads (p : Bool) (r : Ret) (s : State) : (startBlock p r s).undefReads = s.undefReads := rfl

/-! `restEdge` -/

@[simp] theorem restEdge_params (s : State) : (restEdge s).params = s.params := rfl
@[simp] theorem restEdge_live (s : State) : (restEdge s).live = s.live := rfl
@[simp] theorem restEdge_fsm (s : State) : (restEdge s).fsm = s.fsm := rfl
@[simp] theorem restEdge_seq (s : State) : (restEdge s).seq = s.seq := rfl
@[simp] theorem restEdge_len (s : State) : (restEdge s).len = s.len := rfl
@[simp] theorem restEdge_h (s : State) : (restEdge s).h = s.h := rfl
@[simp] theorem restEdge_vars (s : State) : (restEdge s).vars = s.vars := rfl
@[simp] theorem restEdge_w (s : State) : (restEdge s).w = s.w := rfl
@[simp] theorem restEdge_buf (s : State) : (restEdge s).buf = s.buf := rfl
@[simp] theorem restEdge_errs (s : State) : (restEdge s).errs = s.errs := rfl
@[simp] theorem restEdge_rsp (s : State) : (restEdge s).rsp = s.rsp := rfl
@[simp] theorem restEdge_rspValid (s : State) : (restEdge s).rspValid = false := rfl
@[simp] theorem restEdge_host (s : State) : (restEdge s).host = s.host := rfl
@[simp] theorem restEdge_busData (s : State) : (restEdge s).busData = s.busData := rfl
@[simp] theorem restEdge_undefReads (s : State) : (restEdge s).undefReads = s.undefReads := rfl

/-! `resetEdge` -/

@[simp] theorem resetEdge_params (s : State) : (resetEdge s).params = s.params := rfl
@[simp] theorem resetEdge_live (s : State) : (resetEdge s).live = true := rfl
@[simp] theorem resetEdge_fsm (s : State) : (resetEdge s).fsm = .idle := rfl
@[simp] theorem resetEdge_seq (s : State) : (resetEdge s).seq = { sub := .load, tcnt := 0#6, pend2 := false, ret := .absorb } := rfl
@[simp] theorem resetEdge_len (s : State) : (resetEdge s).len = 0#29 := rfl
@[simp] theorem resetEdge_h (s : State) : (resetEdge s).h = unwrittenHash := rfl
@[simp] theorem resetEdge_vars (s : State) : (resetEdge s).vars = unwrittenVars := rfl
@[simp] theorem resetEdge_w (s : State) : (resetEdge s).w = unwrittenSchedule := rfl
@[simp] theorem resetEdge_buf (s : State) : (resetEdge s).buf = [] := rfl
@[simp] theorem resetEdge_errs (s : State) : (resetEdge s).errs = ErrRec.clear := rfl
@[simp] theorem resetEdge_rsp (s : State) : (resetEdge s).rsp = 0#32 := rfl
@[simp] theorem resetEdge_rspValid (s : State) : (resetEdge s).rspValid = false := rfl
@[simp] theorem resetEdge_host (s : State) : (resetEdge s).host = s.host := rfl
@[simp] theorem resetEdge_busData (s : State) : (resetEdge s).busData = s.busData := rfl
@[simp] theorem resetEdge_undefReads (s : State) : (resetEdge s).undefReads = s.undefReads := rfl

/-! `initMessage` -/

@[simp] theorem initMessage_params (s : State) : (initMessage s).params = s.params := rfl
@[simp] theorem initMessage_live (s : State) : (initMessage s).live = s.live := rfl
@[simp] theorem initMessage_fsm (s : State) : (initMessage s).fsm = .absorb := rfl
@[simp] theorem initMessage_seq (s : State) : (initMessage s).seq = { s.seq with pend2 := false } := rfl
@[simp] theorem initMessage_len (s : State) : (initMessage s).len = 0#29 := rfl
@[simp] theorem initMessage_h (s : State) : (initMessage s).h = Latch.put s.params.hInit := rfl
@[simp] theorem initMessage_vars (s : State) : (initMessage s).vars = s.vars := rfl
@[simp] theorem initMessage_w (s : State) : (initMessage s).w = s.w := rfl
@[simp] theorem initMessage_buf (s : State) : (initMessage s).buf = s.buf := rfl
@[simp] theorem initMessage_errs (s : State) : (initMessage s).errs = s.errs := rfl
@[simp] theorem initMessage_rsp (s : State) : (initMessage s).rsp = s.rsp := rfl
@[simp] theorem initMessage_rspValid (s : State) : (initMessage s).rspValid = s.rspValid := rfl
@[simp] theorem initMessage_host (s : State) : (initMessage s).host = s.host := rfl
@[simp] theorem initMessage_busData (s : State) : (initMessage s).busData = s.busData := rfl
@[simp] theorem initMessage_undefReads (s : State) : (initMessage s).undefReads = s.undefReads := rfl

/-! `absorbByte` -/

@[simp] theorem absorbByte_params (b : Byte) (s : State) : (absorbByte b s).params = s.params := rfl
@[simp] theorem absorbByte_live (b : Byte) (s : State) : (absorbByte b s).live = s.live := rfl
@[simp] theorem absorbByte_fsm (b : Byte) (s : State) : (absorbByte b s).fsm = s.fsm := rfl
@[simp] theorem absorbByte_seq (b : Byte) (s : State) : (absorbByte b s).seq = s.seq := rfl
@[simp] theorem absorbByte_len (b : Byte) (s : State) : (absorbByte b s).len = s.len + 1#29 := rfl
@[simp] theorem absorbByte_h (b : Byte) (s : State) : (absorbByte b s).h = s.h := rfl
@[simp] theorem absorbByte_vars (b : Byte) (s : State) : (absorbByte b s).vars = s.vars := rfl
@[simp] theorem absorbByte_w (b : Byte) (s : State) : (absorbByte b s).w = s.w := rfl
@[simp] theorem absorbByte_buf (b : Byte) (s : State) : (absorbByte b s).buf = s.buf.write (fillLevel s.len).toNat b := rfl
@[simp] theorem absorbByte_errs (b : Byte) (s : State) : (absorbByte b s).errs = s.errs := rfl
@[simp] theorem absorbByte_rsp (b : Byte) (s : State) : (absorbByte b s).rsp = s.rsp := rfl
@[simp] theorem absorbByte_rspValid (b : Byte) (s : State) : (absorbByte b s).rspValid = s.rspValid := rfl
@[simp] theorem absorbByte_host (b : Byte) (s : State) : (absorbByte b s).host = s.host := rfl
@[simp] theorem absorbByte_busData (b : Byte) (s : State) : (absorbByte b s).busData = s.busData := rfl
@[simp] theorem absorbByte_undefReads (b : Byte) (s : State) : (absorbByte b s).undefReads = s.undefReads := rfl

/-! `roundState` -/

@[simp] theorem roundState_params (s : State) : (roundState s).params = s.params := rfl
@[simp] theorem roundState_live (s : State) : (roundState s).live = s.live := rfl
@[simp] theorem roundState_fsm (s : State) : (roundState s).fsm = s.fsm := rfl
@[simp] theorem roundState_seq (s : State) : (roundState s).seq = afterRound s.seq := rfl
@[simp] theorem roundState_len (s : State) : (roundState s).len = s.len := rfl
@[simp] theorem roundState_h (s : State) : (roundState s).h = s.h := rfl
@[simp] theorem roundState_vars (s : State) : (roundState s).vars = 
    Latch.put (hashRound s.seq.tcnt (schedWord (schedAdvance s.w s.seq.tcnt) s.seq.tcnt) s.vars.read) := rfl
@[simp] theorem roundState_w (s : State) : (roundState s).w = schedAdvance s.w s.seq.tcnt := rfl
@[simp] theorem roundState_buf (s : State) : (roundState s).buf = s.buf := rfl
@[simp] theorem roundState_errs (s : State) : (roundState s).errs = s.errs := rfl
@[simp] theorem roundState_rsp (s : State) : (roundState s).rsp = s.rsp := rfl
@[simp] theorem roundState_rspValid (s : State) : (roundState s).rspValid = false := rfl
@[simp] theorem roundState_host (s : State) : (roundState s).host = s.host := rfl
@[simp] theorem roundState_busData (s : State) : (roundState s).busData = s.busData := rfl
@[simp] theorem roundState_undefReads (s : State) : (roundState s).undefReads = s.undefReads := rfl

/-! `foldState` -/

@[simp] theorem foldState_params (s : State) : (foldState s).params = s.params := rfl
@[simp] theorem foldState_live (s : State) : (foldState s).live = s.live := rfl
@[simp] theorem foldState_fsm (s : State) : (foldState s).fsm = s.fsm := rfl
@[simp] theorem foldState_seq (s : State) : (foldState s).seq = s.seq := rfl
@[simp] theorem foldState_len (s : State) : (foldState s).len = s.len := rfl
@[simp] theorem foldState_h (s : State) : (foldState s).h = Latch.put (foldHash s.h.read s.vars.read) := rfl
@[simp] theorem foldState_vars (s : State) : (foldState s).vars = s.vars := rfl
@[simp] theorem foldState_w (s : State) : (foldState s).w = unwrittenSchedule := rfl
@[simp] theorem foldState_buf (s : State) : (foldState s).buf = s.buf := rfl
@[simp] theorem foldState_errs (s : State) : (foldState s).errs = s.errs := rfl
@[simp] theorem foldState_rsp (s : State) : (foldState s).rsp = s.rsp := rfl
@[simp] theorem foldState_rspValid (s : State) : (foldState s).rspValid = s.rspValid := rfl
@[simp] theorem foldState_host (s : State) : (foldState s).host = s.host := rfl
@[simp] theorem foldState_busData (s : State) : (foldState s).busData = s.busData := rfl
@[simp] theorem foldState_undefReads (s : State) : (foldState s).undefReads = s.undefReads := rfl

/-! `nextClosingBlock` -/

@[simp] theorem nextClosingBlock_params (s : State) : (nextClosingBlock s).params = s.params := rfl
@[simp] theorem nextClosingBlock_live (s : State) : (nextClosingBlock s).live = s.live := rfl
@[simp] theorem nextClosingBlock_fsm (s : State) : (nextClosingBlock s).fsm = s.fsm := rfl
@[simp] theorem nextClosingBlock_seq (s : State) : (nextClosingBlock s).seq = { s.seq with pend2 := false, sub := .load } := rfl
@[simp] theorem nextClosingBlock_len (s : State) : (nextClosingBlock s).len = s.len := rfl
@[simp] theorem nextClosingBlock_h (s : State) : (nextClosingBlock s).h = s.h := rfl
@[simp] theorem nextClosingBlock_vars (s : State) : (nextClosingBlock s).vars = s.vars := rfl
@[simp] theorem nextClosingBlock_w (s : State) : (nextClosingBlock s).w = s.w := rfl
@[simp] theorem nextClosingBlock_buf (s : State) : (nextClosingBlock s).buf = s.buf.writeBytes 0 (secondBlock s.len) := by simp only [nextClosingBlock]
@[simp] theorem nextClosingBlock_errs (s : State) : (nextClosingBlock s).errs = s.errs := rfl
@[simp] theorem nextClosingBlock_rsp (s : State) : (nextClosingBlock s).rsp = s.rsp := rfl
@[simp] theorem nextClosingBlock_rspValid (s : State) : (nextClosingBlock s).rspValid = false := rfl
@[simp] theorem nextClosingBlock_host (s : State) : (nextClosingBlock s).host = s.host := rfl
@[simp] theorem nextClosingBlock_busData (s : State) : (nextClosingBlock s).busData = s.busData := rfl
@[simp] theorem nextClosingBlock_undefReads (s : State) : (nextClosingBlock s).undefReads = s.undefReads := rfl

/-! `finishCommand` -/

@[simp] theorem finishCommand_params (s : State) : (finishCommand s).params = s.params := rfl
@[simp] theorem finishCommand_live (s : State) : (finishCommand s).live = s.live := rfl
@[simp] theorem finishCommand_fsm (s : State) : (finishCommand s).fsm = s.seq.ret.fsm := rfl
@[simp] theorem finishCommand_seq (s : State) : (finishCommand s).seq = s.seq := rfl
@[simp] theorem finishCommand_len (s : State) : (finishCommand s).len = s.len := rfl
@[simp] theorem finishCommand_h (s : State) : (finishCommand s).h = s.h := rfl
@[simp] theorem finishCommand_vars (s : State) : (finishCommand s).vars = s.vars := rfl
@[simp] theorem finishCommand_w (s : State) : (finishCommand s).w = s.w := rfl
@[simp] theorem finishCommand_buf (s : State) : (finishCommand s).buf = s.buf := rfl
@[simp] theorem finishCommand_errs (s : State) : (finishCommand s).errs = s.errs := rfl
@[simp] theorem finishCommand_rsp (s : State) : (finishCommand s).rsp = responseWord (statusWord { s with fsm := s.seq.ret.fsm }) 0x00#8 := rfl
@[simp] theorem finishCommand_rspValid (s : State) : (finishCommand s).rspValid = true := rfl
@[simp] theorem finishCommand_host (s : State) : (finishCommand s).host = s.host := rfl
@[simp] theorem finishCommand_busData (s : State) : (finishCommand s).busData = s.busData := rfl
@[simp] theorem finishCommand_undefReads (s : State) : (finishCommand s).undefReads = s.undefReads := rfl

/-! The state after reset (10_state.md R32) -/

@[simp] theorem resetOf_params (p : Params) : (State.resetOf p).params = p := rfl
@[simp] theorem resetOf_live (p : Params) : (State.resetOf p).live = true := rfl
@[simp] theorem resetOf_fsm (p : Params) : (State.resetOf p).fsm = .idle := rfl
@[simp] theorem resetOf_len (p : Params) : (State.resetOf p).len = 0#29 := rfl
@[simp] theorem resetOf_buf (p : Params) : (State.resetOf p).buf = [] := rfl
@[simp] theorem resetOf_errs (p : Params) : (State.resetOf p).errs = ErrRec.clear := rfl
@[simp] theorem resetOf_rsp (p : Params) : (State.resetOf p).rsp = 0#32 := rfl
@[simp] theorem resetOf_rspValid (p : Params) : (State.resetOf p).rspValid = false := rfl
@[simp] theorem resetOf_host (p : Params) : (State.resetOf p).host = [] := rfl
@[simp] theorem resetOf_busData (p : Params) : (State.resetOf p).busData = 0#32 := rfl
@[simp] theorem resetOf_undefReads (p : Params) : (State.resetOf p).undefReads = 0 := rfl
@[simp] theorem resetOf_w (p : Params) : (State.resetOf p).w = unwrittenSchedule := rfl
@[simp] theorem resetOf_seq_pend2 (p : Params) : (State.resetOf p).seq.pend2 = false := rfl
@[simp] theorem resetOf_h (p : Params) : (State.resetOf p).h = unwrittenHash := rfl
@[simp] theorem resetOf_vars (p : Params) : (State.resetOf p).vars = unwrittenVars := rfl
@[simp] theorem unwrittenHash_written : unwrittenHash.written = false := rfl
@[simp] theorem unwrittenVars_written : unwrittenVars.written = false := rfl

end Sys2Proof.Machine
end

