-- ==== Sys2Proof/Laws/Decode.lean ====
section
/-! SUPPORT. The fields of a command word, bit by bit (30_encoding.md R70). -/

namespace Sys2Proof.Machine

/-- The bits of a command word: OPC, zeros, ARG, zeros (30_encoding.md R70). -/
theorem cmdWord_getLsbD (arg : Byte) (opc : BitVec 4) (i : Nat) :
    (cmdWord arg opc).getLsbD i =
      if i < 4 then opc.getLsbD i else if i < 8 then false else if i < 16 then arg.getLsbD (i - 8) else false := by
  refine (BitVec.getLsbD_append (x := 0#16 ++ arg ++ 0#4) (y := opc)).trans ?_
  rw [BitVec.getLsbD_append, BitVec.getLsbD_append]
  by_cases h1 : i < 4
  · simp [h1]
  · by_cases h2 : i < 8
    · simp [h1, h2, show i - 4 < 4 by omega]
    · by_cases h3 : i < 16
      · simp [h1, h2, h3, show ¬ i - 4 < 4 by omega, show i - 4 - 4 = i - 8 by omega, show i - 8 < 8 by omega]
      · simp [h1, h2, h3, show ¬ i - 4 < 4 by omega, show ¬ i - 4 - 4 < 8 by omega]

@[simp] theorem opcOf_cmdWord (arg : Byte) (opc : BitVec 4) : opcOf (cmdWord arg opc) = opc := by
  apply BitVec.eq_of_getLsbD_eq
  intro i hi
  simp [opcOf, hi, cmdWord_getLsbD]

@[simp] theorem argOf_cmdWord (arg : Byte) (opc : BitVec 4) : argOf (cmdWord arg opc) = arg := by
  apply BitVec.eq_of_getLsbD_eq
  intro i hi
  simp [argOf, hi, cmdWord_getLsbD, show ¬ 8 + i < 4 by omega, show 8 + i < 16 by omega]

/-- A word whose RSV0 and RSV1 fields are zero is the command word of its own fields. -/
theorem eq_cmdWord_of_fields {w : Word} (h : w &&& 0xFFFF00F0#32 = 0#32) : w = cmdWord (argOf w) (opcOf w) := by
  apply BitVec.eq_of_getLsbD_eq
  intro i hi
  have hbit := congrArg (fun x : Word => x.getLsbD i) h
  simp only [BitVec.getLsbD_and, BitVec.getLsbD_zero, Bool.and_eq_false_iff] at hbit
  rw [cmdWord_getLsbD]
  have hm : ∀ j : Fin 32, (4 ≤ j.val ∧ j.val < 8) ∨ 16 ≤ j.val → (0xFFFF00F0#32).getLsbD j.val = true := by decide
  by_cases h1 : i < 4
  · simp [h1, opcOf]
  · by_cases h2 : i < 8
    · have := hm ⟨i, hi⟩ (.inl ⟨by simpa using h1, h2⟩)
      simp only [h1, h2, if_true, if_false]
      rcases hbit with hb | hb
      · exact hb
      · rw [this] at hb; cases hb
    · by_cases h3 : i < 16
      · simp [h1, h2, h3, argOf, show i - 8 < 8 by omega, show 8 + (i - 8) = i by omega]
      · have := hm ⟨i, hi⟩ (.inr (by simpa using h3))
        simp only [h1, h2, h3, if_false]
        rcases hbit with hb | hb
        · exact hb
        · rw [this] at hb; cases hb

/-- Every must-be-zero mask of a defined opcode covers RSV0 and RSV1 (30_encoding.md R73). -/
theorem fields_of_mustBeZero {w : Word} (h6 : (opcOf w).toNat < 6) (h : w &&& mustBeZero (opcOf w) = 0#32) :
    w &&& 0xFFFF00F0#32 = 0#32 := by
  have hsub : ∀ o : BitVec 4, o.toNat < 6 → 0xFFFF00F0#32 = mustBeZero o &&& 0xFFFF00F0#32 := by decide
  rw [hsub _ h6, ← BitVec.and_assoc, h]
  simp

/-- A bit under a mask that gives zero is zero. -/
theorem bit_of_and_zero {w m : Word} (h : w &&& m = 0#32) (i : Nat) (hi : m.getLsbD i = true) : w.getLsbD i = false := by
  have := congrArg (fun x : Word => x.getLsbD i) h
  simpa [hi] using this

end Sys2Proof.Machine
end

