-- ==== Sys2Proof/Laws/Memory.lean ====
section
/-! SUPPORT. The block buffer, the registers that may be unwritten and the schedule words: what a read gives after a write, and
that every write keeps the canonical form. -/

namespace Sys2Proof.Machine

/-- Read after write, at every address. -/
@[simp] theorem Memory.read_write (m : Memory) (a : Nat) (b : Byte) (x : Nat) :
    (m.write a b).read x = if x = a then some b else m.read x := by
  induction m with
  | nil => simp [Memory.write, Memory.read, eq_comm]
  | cons c m ih =>
    obtain ⟨k, y⟩ := c
    simp only [Memory.write]
    split
    · simp only [Memory.read, eq_comm]
    · split
      · rename_i h; subst h; simp only [Memory.read, eq_comm]; split <;> simp_all
      · simp only [Memory.read, ih]
        by_cases hx : k = x
        · subst hx; simp [*, eq_comm]
        · simp [hx]

/-- What a read gives after consecutive writes. -/
theorem Memory.read_writeBytes (bs : List Byte) (m : Memory) (a x : Nat) :
    (m.writeBytes a bs).read x = if a ≤ x ∧ x < a + bs.length then bs[x - a]? else m.read x := by
  induction bs generalizing m a with
  | nil => simp [Memory.writeBytes]
  | cons b bs ih =>
    simp only [Memory.writeBytes, ih, Memory.read_write, List.length_cons]
    by_cases h : x = a
    · subst h; simp
    · by_cases h1 : a + 1 ≤ x ∧ x < a + 1 + bs.length
      · have h2 : a ≤ x ∧ x < a + (bs.length + 1) := by omega
        obtain ⟨d, rfl⟩ : ∃ d, x = a + 1 + d := ⟨x - (a + 1), by omega⟩
        have e : a + 1 + d - a = d + 1 := by omega
        simp [h1, h2, e]
      · have h2 : ¬(a ≤ x ∧ x < a + (bs.length + 1)) := by omega
        rw [if_neg h1, if_neg h, if_neg h2]

/-- Reading `n` bytes gives a list exactly when each of them is written, and the list is those bytes. -/
theorem Memory.readBytes_eq_some (m : Memory) (n a : Nat) (bs : List Byte) :
    m.readBytes n a = some bs ↔ bs.length = n ∧ ∀ i, i < n → m.read (a + i) = bs[i]? := by
  induction n generalizing a bs with
  | zero => cases bs <;> simp [Memory.readBytes]
  | succ n ih =>
    simp only [Memory.readBytes]
    cases bs with
    | nil =>
      constructor
      · split <;> simp
      · rintro ⟨h, -⟩; simp at h
    | cons b bs =>
      constructor
      · split
        · rename_i b' bs' hb hbs
          intro h
          simp only [Option.some.injEq, List.cons.injEq] at h
          obtain ⟨rfl, rfl⟩ := h
          obtain ⟨hl, hr⟩ := (ih _ _).mp hbs
          refine ⟨by simp [hl], ?_⟩
          intro i hi
          cases i with
          | zero => simpa using hb
          | succ i =>
            have := hr i (by omega)
            rw [show a + (i + 1) = a + 1 + i by omega, this]; simp
        · simp
      · rintro ⟨hl, hr⟩
        have h0 := hr 0 (by omega)
        simp only [Nat.add_zero, List.getElem?_cons_zero] at h0
        have h1 : m.readBytes n (a + 1) = some bs := by
          refine (ih _ _).mpr ⟨by simpa using hl, ?_⟩
          intro i hi
          have := hr (i + 1) (by omega)
          rw [show a + 1 + i = a + (i + 1) by omega, this]; simp
        simp [h0, h1]

/-- Reading `n` bytes succeeds when each of them is written. -/
theorem Memory.readBytes_isSome (m : Memory) (n a : Nat) (h : ∀ i, i < n → (m.read (a + i)).isSome = true) :
    (m.readBytes n a).isSome = true := by
  induction n generalizing a with
  | zero => simp [Memory.readBytes]
  | succ n ih =>
    have h0 := h 0 (by omega)
    have h1 := ih (a + 1) (fun i hi => by have := h (i + 1) (by omega); rwa [show a + (i + 1) = a + 1 + i by omega] at this)
    obtain ⟨b, hb⟩ := Option.isSome_iff_exists.mp h0
    obtain ⟨bs, hbs⟩ := Option.isSome_iff_exists.mp h1
    rw [Nat.add_zero] at hb
    simp [Memory.readBytes, hb, hbs]

/-- A property of all addresses is kept by a write at an address that has it. -/
theorem Memory.all_write (p : Host.Cell → Bool) (m : Memory) (a : Nat) (b : Byte)
    (h : m.all p = true) (hp : p (a, b) = true) : (m.write a b).all p = true := by
  induction m with
  | nil => simpa [Memory.write] using hp
  | cons c m ih =>
    obtain ⟨k, y⟩ := c
    simp only [List.all_cons, Bool.and_eq_true] at h
    simp only [Memory.write]
    split
    · simp [hp, h.1, h.2]
    · split
      · simp [hp, h.2]
      · simp [h.1, ih h.2]

/-- A write keeps the addresses strictly rising. -/
theorem Memory.sorted_write (m : Memory) (a : Nat) (b : Byte) (h : m.sorted = true) : (m.write a b).sorted = true := by
  induction m with
  | nil => simp [Memory.write, Memory.sorted]
  | cons c m ih =>
    obtain ⟨k, y⟩ := c
    simp only [Memory.sorted, Bool.and_eq_true] at h
    simp only [Memory.write]
    split
    · rename_i hlt
      have hall : m.all (fun c => decide (a < c.1)) = true := by
        simp only [List.all_eq_true, decide_eq_true_eq] at h ⊢
        intro c hc; have := h.1 c hc; omega
      simp [Memory.sorted, hlt, hall, h.1, h.2]
    · split
      · rename_i heq; subst heq
        simp [Memory.sorted, h.1, h.2]
      · have hk : k < a := by omega
        simp only [Memory.sorted, Bool.and_eq_true]
        exact ⟨Memory.all_write _ _ _ _ h.1 (by simpa using hk), ih h.2⟩

/-- A write at an address of BUF keeps its canonical form. -/
theorem Memory.wf_write (m : Memory) (a : Nat) (b : Byte) (ha : a < 64) (h : m.wf = true) : (m.write a b).wf = true := by
  simp only [Memory.wf, Bool.and_eq_true] at h ⊢
  exact ⟨Memory.sorted_write _ _ _ h.1, Memory.all_write _ _ _ _ h.2 (by simpa using ha)⟩

/-- Consecutive writes inside BUF keep its canonical form. -/
theorem Memory.wf_writeBytes (bs : List Byte) (m : Memory) (a : Nat) (ha : a + bs.length ≤ 64) (h : m.wf = true) :
    (m.writeBytes a bs).wf = true := by
  induction bs generalizing m a with
  | nil => simpa [Memory.writeBytes] using h
  | cons b bs ih =>
    simp only [List.length_cons] at ha
    exact ih _ _ (by omega) (Memory.wf_write _ _ _ (by omega) h)

/-- After reset BUF has the canonical form. -/
theorem State.reset_buf_wf : State.reset.buf.wf = true := rfl

@[simp] theorem Latch.get?_put {α : Type} (x : α) : (Latch.put x).get? = some x := rfl
@[simp] theorem Latch.put_written {α : Type} (x : α) : (Latch.put x).written = true := rfl
@[simp] theorem Latch.put_val {α : Type} (x : α) : (Latch.put x).val = x := rfl
@[simp] theorem Latch.read_put {α : Type} (x : α) : (Latch.put x).read = x := rfl

/-- A read of a written register gives what it holds. -/
theorem Latch.read_of_get? {α : Type} {l : Latch α} {x : α} (h : l.get? = some x) : l.read = x := by
  unfold Latch.get? at h; unfold Latch.read; split at h <;> simp_all

/-- A read of a register gives its value exactly when it is written (10_state.md R33). -/
theorem Latch.get?_eq_some {α : Type} (l : Latch α) (x : α) : l.get? = some x ↔ l.written = true ∧ l.val = x := by
  unfold Latch.get?; split <;> simp_all

@[simp] theorem Latch.get?_eq_none {α : Type} (l : Latch α) : l.get? = none ↔ l.written = false := by
  unfold Latch.get?; split <;> simp_all

theorem Latch.get?_of_written {α : Type} (l : Latch α) (h : l.written = true) : l.get? = some l.val := by
  simp [Latch.get?, h]

/-- Reading a schedule word after writing one. -/
@[simp] theorem schedRead_schedWrite (w : Vector (Latch Word) 64) (t u : BitVec 6) (x : Word) :
    schedRead (schedWrite w t x) u = if u = t then some x else schedRead w u := by
  unfold schedRead schedWrite
  by_cases h : u = t
  · subst h; simp
  · have : t.toNat ≠ u.toNat := fun e => h (BitVec.eq_of_toNat_eq e.symm)
    simp [Vector.getElem_set_ne, this, h]

/-- After reset, and after FOLD, no schedule word is written (10_state.md R33). -/
@[simp] theorem schedRead_unwritten (t : BitVec 6) : schedRead unwrittenSchedule t = none := by
  simp [schedRead, unwrittenSchedule, unwrittenLatch, Latch.get?]

/-- A read of a written schedule word gives what it holds. -/
theorem schedWord_of_schedRead {w : Vector (Latch Word) 64} {t : BitVec 6} {x : Word} (h : schedRead w t = some x) :
    schedWord w t = x := Latch.read_of_get? h

/-- Reading a schedule word after writing one. -/
@[simp] theorem schedWord_schedWrite (w : Vector (Latch Word) 64) (t u : BitVec 6) (x : Word) :
    schedWord (schedWrite w t x) u = if u = t then x else schedWord w u := by
  unfold schedWord schedWrite
  by_cases h : u = t
  · subst h; simp
  · have : t.toNat ≠ u.toNat := fun e => h (BitVec.eq_of_toNat_eq e.symm)
    simp [Vector.getElem_set_ne, this, h]

end Sys2Proof.Machine
end

