-- ==== Sys2Proof/Laws/Ops.lean ====
section
/-! SUPPORT. What the shared operations and the six meanings can answer, said once each: later proofs cite these and do not
unfold the operations. -/

namespace Sys2Proof.Machine

/-- A core that accepts commands runs the meaning. -/
theorem accepting_of_ready {s : State} {o : Result} (h : Ready s) : accepting s o = o := by
  simp [accepting, h.1, h.2]

/-- While BUSY a command is held: nothing happens (60_exceptions.md R222). -/
theorem accepting_of_busy {s : State} {o : Result} (hl : s.live = true) (hb : s.fsm = .busy) :
    accepting s o = .next s := by
  simp [accepting, hl, hb]

/-- Before the first reset a command is refused (70_reset_and_hazards.md R251). -/
theorem accepting_before_reset {s : State} {o : Result} (hl : s.live = false) :
    accepting s o = .refused .beforeReset := by
  simp [accepting, hl]

/-- Everything `accepting` can do when it answers a next state. -/
theorem accepting_next {s t : State} {o : Result} (h : accepting s o = .next t) :
    (s.live = true ∧ s.fsm = .busy ∧ t = s) ∨ (Ready s ∧ o = .next t) := by
  unfold accepting at h
  split at h
  · rename_i hl
    split at h
    · rename_i hb; exact .inl ⟨hl, hb, by simpa using h.symm⟩
    · rename_i hb; exact .inr ⟨⟨hl, hb⟩, h⟩
  · cases h

/-- A fault under `accepting` is the meaning's own. -/
theorem accepting_fault {s : State} {o : Result} {r : Fault} (h : accepting s o = .fault r) : Ready s ∧ o = .fault r := by
  unfold accepting at h
  split at h
  · rename_i hl
    split at h
    · cases h
    · rename_i hb; exact ⟨⟨hl, hb⟩, h⟩
  · cases h

/-- The state after a command that raised an error (60_exceptions.md R224). -/
abbrev errorState (c : Cause) (s : State) : State := respond 0x00#8 (raiseError c s)

/-- Everything NOP can do. -/
theorem execNop_next {s t : State} (h : execNop s = .next t) :
    (s.live = true ∧ s.fsm = .busy ∧ t = s) ∨ (Ready s ∧ t = respond 0x00#8 s) := by
  rcases accepting_next h with h | ⟨hr, h⟩
  · exact .inl h
  · exact .inr ⟨hr, by simpa using h.symm⟩

/-- Everything INIT can do. -/
theorem execInit_next {s t : State} (h : execInit s = .next t) :
    (s.live = true ∧ s.fsm = .busy ∧ t = s) ∨ (Ready s ∧ t = respond 0x00#8 (initMessage s)) := by
  rcases accepting_next h with h | ⟨hr, h⟩
  · exact .inl h
  · exact .inr ⟨hr, by simpa using h.symm⟩

/-- Everything CLRERR can do. -/
theorem execClrerr_next {s t : State} (h : execClrerr s = .next t) :
    (s.live = true ∧ s.fsm = .busy ∧ t = s) ∨
      (Ready s ∧ t = respond 0x00#8 { s with errs := ErrRec.clear }) := by
  rcases accepting_next h with h | ⟨hr, h⟩
  · exact .inl h
  · exact .inr ⟨hr, by simpa using h.symm⟩

/-- Everything PUSH can do: held, SEQ, TOO_LARGE, the byte that fills the block, any other byte. -/
theorem execPush_next {b : Byte} {s t : State} (h : execPush b s = .next t) :
    (s.live = true ∧ s.fsm = .busy ∧ t = s) ∨
      (Ready s ∧ s.fsm ≠ .absorb ∧ t = errorState .seq s) ∨
      (Ready s ∧ s.fsm = .absorb ∧ s.params.lenGuard = true ∧ s.len = lastLen ∧ t = errorState .tooLarge s) ∨
      (Ready s ∧ s.fsm = .absorb ∧ fillLevel s.len = 63#6 ∧ t = startBlock false .absorb (absorbByte b s)) ∨
      (Ready s ∧ s.fsm = .absorb ∧ fillLevel s.len ≠ 63#6 ∧ t = respond 0x00#8 (absorbByte b s)) := by
  rcases accepting_next h with h | ⟨hr, h⟩
  · exact .inl h
  · right
    split at h
    · rename_i hf
      exact .inl ⟨hr, hf, by simpa [commandError] using h.symm⟩
    · rename_i hf
      simp only [ne_eq, not_not] at hf
      split at h
      · rename_i hg
        simp only [Bool.and_eq_true, beq_iff_eq] at hg
        exact .inr (.inl ⟨hr, hf, hg.1, hg.2, by simpa [commandError] using h.symm⟩)
      · split at h
        · rename_i h63
          exact .inr (.inr (.inl ⟨hr, hf, h63, by simpa using h.symm⟩))
        · rename_i h63
          exact .inr (.inr (.inr ⟨hr, hf, h63, by simpa using h.symm⟩))

/-- The state FINAL starts its compression in. -/
abbrev finalState (s : State) : State :=
  startBlock (decide (56 ≤ (fillLevel s.len).toNat)) .done { s with buf := closeBuffer s }

/-- Everything FINAL can do: held, SEQ, or the closing block. -/
theorem execFinal_next {s t : State} (h : execFinal s = .next t) :
    (s.live = true ∧ s.fsm = .busy ∧ t = s) ∨
      (Ready s ∧ s.fsm ≠ .absorb ∧ t = errorState .seq s) ∨ (Ready s ∧ s.fsm = .absorb ∧ t = finalState s) := by
  rcases accepting_next h with h | ⟨hr, h⟩
  · exact .inl h
  · right
    split at h
    · rename_i hf
      exact .inl ⟨hr, hf, by simpa [commandError] using h.symm⟩
    · rename_i hf
      simp only [ne_eq, not_not] at hf
      exact .inr ⟨hr, hf, by simpa using h.symm⟩

/-- Everything RDHEX can do: held, SEQ, or the character. -/
theorem execRdhex_next {idx : BitVec 6} {s t : State} (h : execRdhex idx s = .next t) :
    (s.live = true ∧ s.fsm = .busy ∧ t = s) ∨
      (Ready s ∧ s.fsm ≠ .done ∧ t = errorState .seq s) ∨
      (Ready s ∧ s.fsm = .done ∧ t = respond (hexAt s.h.read idx) s) := by
  rcases accepting_next h with h | ⟨hr, h⟩
  · exact .inl h
  · right
    split at h
    · rename_i hf
      exact .inl ⟨hr, hf, by simpa [commandError] using h.symm⟩
    · rename_i hf
      simp only [ne_eq, not_not] at hf
      exact .inr ⟨hr, hf, by simpa using h.symm⟩

/-- No command faults. -/
theorem exec_not_fault (i : Instr) (s : State) (r : Fault) : exec i s ≠ .fault r := by
  intro h
  cases i with
  | nop => exact absurd (accepting_fault h).2 (by simp)
  | init => exact absurd (accepting_fault h).2 (by simp)
  | clrerr => exact absurd (accepting_fault h).2 (by simp)
  | push b =>
    refine absurd (accepting_fault h).2 ?_
    split
    · simp [commandError]
    · split
      · simp [commandError]
      · split <;> simp
  | final =>
    refine absurd (accepting_fault h).2 ?_
    split <;> simp [commandError]
  | rdhex idx =>
    refine absurd (accepting_fault h).2 ?_
    split <;> simp [commandError]

/-- Recording an error keeps the first cause and sets EOVF on a later one (60_exceptions.md R224). -/
theorem ErrRec.raise_of_clear {e : ErrRec} (c : Cause) (h : e.err = false) :
    e.raise c = { e with err := true, ecode := c } := by
  simp [ErrRec.raise, h]

theorem ErrRec.raise_of_set {e : ErrRec} (c : Cause) (h : e.err = true) : e.raise c = { e with eovf := true } := by
  simp [ErrRec.raise, h]

@[simp] theorem ErrRec.raise_err (e : ErrRec) (c : Cause) : (e.raise c).err = true := by
  unfold ErrRec.raise; split <;> simp_all

/-- The bits of a response word (30_encoding.md R80). -/
theorem responseWord_getLsbD (x : BitVec 16) (d : Byte) (i : Nat) :
    (responseWord x d).getLsbD i = if i < 8 then d.getLsbD i else if i < 16 then false else x.getLsbD (i - 16) := by
  refine (BitVec.getLsbD_append (x := x ++ 0#8) (y := d)).trans ?_
  rw [BitVec.getLsbD_append]
  by_cases h : i < 8
  · simp [h]
  · by_cases h2 : i < 16
    · simp [h, h2, show i - 8 < 8 by omega]
    · simp [h, h2, show ¬ i - 8 < 8 by omega, show i - 8 - 8 = i - 16 by omega]

/-- The bits of the status word (30_encoding.md R82). -/
theorem statusWord_getLsbD (s : State) (i : Nat) :
    (statusWord s).getLsbD i =
      if i < 3 then s.fsm.code.getLsbD i else if i = 3 then s.errs.err
      else if i < 8 then s.errs.ecode.code.getLsbD (i - 4) else if i = 8 then s.errs.eovf
      else if i = 9 then s.params.lenGuard else false := by
  refine (BitVec.getLsbD_append (y := s.fsm.code)).trans ?_
  rw [BitVec.getLsbD_append, BitVec.getLsbD_append, BitVec.getLsbD_append, BitVec.getLsbD_append]
  by_cases h : i < 10
  · interval_cases i <;> simp
  · have h1 : ¬ i < 3 := by omega
    simp only [h1, if_false, show ¬ i - 3 < 1 by omega, show ¬ i - 3 - 1 < 4 by omega,
      show ¬ i - 3 - 1 - 4 < 1 by omega, show ¬ i - 3 - 1 - 4 - 1 < 1 by omega,
      show ¬ i = 3 by omega, show ¬ i < 8 by omega, show ¬ i = 8 by omega, show ¬ i = 9 by omega]
    simp

/-- The fields of a response word (30_encoding.md R80). -/
@[simp] theorem responseWord_data (x : BitVec 16) (d : Byte) : (responseWord x d).extractLsb' 0 8 = d := by
  apply BitVec.eq_of_getLsbD_eq
  intro i hi
  simp [responseWord_getLsbD, hi]

@[simp] theorem responseWord_zero (x : BitVec 16) (d : Byte) : (responseWord x d).extractLsb' 8 8 = 0#8 := by
  apply BitVec.eq_of_getLsbD_eq
  intro i hi
  simp [responseWord_getLsbD, show 8 + i < 16 by omega]

@[simp] theorem responseWord_stat (x : BitVec 16) (d : Byte) : (responseWord x d).extractLsb' 16 16 = x := by
  apply BitVec.eq_of_getLsbD_eq
  intro i hi
  simp [responseWord_getLsbD, show ¬ (16 + i < 8) by omega, hi]

/-- The FSM field of a response word is that of its status (30_encoding.md R80, R82). -/
theorem responseWord_fsm (s : State) (d : Byte) :
    (responseWord (statusWord s) d).extractLsb' 16 3 = s.fsm.code := by
  apply BitVec.eq_of_getLsbD_eq
  intro i hi
  simp [responseWord_getLsbD, statusWord_getLsbD, show ¬ (16 + i < 8) by omega, hi]

end Sys2Proof.Machine
end

