-- ==== Sys2Proof/Laws/PerInstr.lean ====
section
/-! SUPPORT. Facts about each command as syntax, one lemma per constructor. -/

namespace Sys2Proof.Laws.TableRow

/-- The word of a command lies in its row of the opcode table: the row's mask of the word is the row's match
(30_encoding.md R73), and the opcode is one of 0x0 to 0x5 (R71). -/
def Statement (i : Instr) : Prop :=
  encode i &&& tableMask i = tableMatch i ∧ (opcOf (encode i)).toNat < 6

theorem nop : Statement .nop := by unfold Statement; decide

theorem init : Statement .init := by unfold Statement; decide

theorem push (b : Byte) : Statement (.push b) := by unfold Statement; revert b; decide +kernel

theorem final : Statement .final := by unfold Statement; decide

theorem rdhex (i : BitVec 6) : Statement (.rdhex i) := by unfold Statement; revert i; decide +kernel

theorem clrerr : Statement .clrerr := by unfold Statement; decide

end Sys2Proof.Laws.TableRow
end

