-- ==== Sys2Proof/Laws/Sequencer.lean ====
section
/-! SUPPORT. What the sequencer's steps can answer, said once each (43_compression.md R171 to R174). -/

namespace Sys2Proof.Machine

/-- The words of a byte list: one for each four bytes. -/
theorem length_wordsOf (bs : List Byte) : (wordsOf bs).length = bs.length / 4 := by
  induction bs using wordsOf.induct with
  | case1 b0 b1 b2 b3 bs ih => simp [wordsOf, ih]; omega
  | case2 bs h =>
    match bs, h with
    | [], _ => simp [wordsOf]
    | [_], _ => simp [wordsOf]
    | [_, _], _ => simp [wordsOf]
    | [_, _, _], _ => simp [wordsOf]
    | b0 :: b1 :: b2 :: b3 :: l, h => exact absurd rfl (h b0 b1 b2 b3 l)

/-- Word t of a byte list is bytes 4t to 4t+3, the most significant first (20_memory.md R52). -/
theorem getElem?_wordsOf (bs : List Byte) (t : Nat) (b0 b1 b2 b3 : Byte)
    (h0 : bs[4 * t]? = some b0) (h1 : bs[4 * t + 1]? = some b1) (h2 : bs[4 * t + 2]? = some b2)
    (h3 : bs[4 * t + 3]? = some b3) : (wordsOf bs)[t]? = some (wordBe b0 b1 b2 b3) := by
  induction t generalizing bs with
  | zero =>
    match bs, h0, h1, h2, h3 with
    | c0 :: c1 :: c2 :: c3 :: l, h0, h1, h2, h3 => simp_all [wordsOf]
  | succ t ih =>
    match bs, h3 with
    | c0 :: c1 :: c2 :: c3 :: l, h3 =>
      simp only [wordsOf, List.getElem?_cons_succ]
      apply ih
      · simpa [show 4 * (t + 1) = 4 * t + 3 + 1 by omega] using h0
      · simpa [show 4 * (t + 1) + 1 = 4 * t + 1 + 3 + 1 by omega] using h1
      · simpa [show 4 * (t + 1) + 2 = 4 * t + 2 + 3 + 1 by omega] using h2
      · simpa [show 4 * (t + 1) + 3 = 4 * t + 3 + 3 + 1 by omega] using h3
    | [_, _, _], h3 => simp at h3
    | [_, _], h3 => simp at h3
    | [_], h3 => simp at h3
    | [], h3 => simp at h3

/-- Everything LOAD can do when it answers a next state. -/
theorem seqLoad_next {s t : State} (h : seqLoad s = .next t) :
    ∃ bytes, s.buf.readBytes 64 0 = some bytes ∧
      t = { s with
        vars := Latch.put (varsOfHash s.h.read)
        w := schedWriteWords s.w 0#6 (wordsOf bytes)
        seq := { s.seq with sub := .round, tcnt := 0#6 }
        rspValid := false } := by
  unfold seqLoad at h
  split at h
  · rename_i bytes hb
    exact ⟨bytes, hb, by simpa using h.symm⟩
  · cases h

/-- What FOLD leaves, by PEND2. -/
theorem endBlock_cases (s : State) :
    (s.seq.pend2 = true ∧ endBlock s = nextClosingBlock (foldState s)) ∨
      (s.seq.pend2 = false ∧ endBlock s = finishCommand (foldState s)) := by
  cases hp : s.seq.pend2 <;> simp [endBlock, hp]

/-- Everything a sequencer step can do when it answers a next state. -/
theorem tick_next {s t : State} (h : tick s = .next t) :
    (s.seq.sub = .load ∧ seqLoad s = .next t) ∨ (s.seq.sub = .round ∧ t = roundState s) ∨
      (s.seq.sub = .fold ∧ s.seq.pend2 = true ∧ t = nextClosingBlock (foldState s)) ∨
      (s.seq.sub = .fold ∧ s.seq.pend2 = false ∧ t = finishCommand (foldState s)) := by
  unfold tick at h
  split at h
  · rename_i hs; exact .inl ⟨hs, h⟩
  · rename_i hs; exact .inr (.inl ⟨hs, by simpa using h.symm⟩)
  · rename_i hs
    have ht : t = endBlock s := by simpa using h.symm
    rcases endBlock_cases s with ⟨hp, he⟩ | ⟨hp, he⟩
    · exact .inr (.inr (.inl ⟨hs, hp, ht.trans he⟩))
    · exact .inr (.inr (.inr ⟨hs, hp, ht.trans he⟩))

/-- The one fault of a sequencer step: LOAD with an unwritten byte in BUF (10_state.md R33). -/
theorem tick_fault {s : State} {r : Fault} (h : tick s = .fault r) :
    s.seq.sub = .load ∧ s.buf.readBytes 64 0 = none := by
  unfold tick seqLoad at h
  split at h
  · rename_i hs
    split at h
    · cases h
    · rename_i hb; exact ⟨hs, hb⟩
  · cases h
  · cases h

/-- The sequencer never refuses. -/
theorem tick_not_refused (s : State) (r : Refusal) : tick s ≠ .refused r := by
  unfold tick seqLoad
  split
  · split <;> simp
  · simp
  · simp

/-- The expander's part of round t below 16: nothing (43_compression.md R172). -/
theorem schedAdvance_of_lt {w : Vector (Latch Word) 64} {t : BitVec 6} (h : t.toNat < 16) : schedAdvance w t = w := by
  simp [schedAdvance, h]

/-- The expander's part of round t from 16 on: one word (43_compression.md R172). -/
theorem schedAdvance_of_ge {w : Vector (Latch Word) 64} {t : BitVec 6} (h : 16 ≤ t.toNat) :
    schedAdvance w t =
      schedWrite w t (expandWord (schedWord w (t - 16#6)) (schedWord w (t - 15#6)) (schedWord w (t - 7#6))
        (schedWord w (t - 2#6))) := by
  rw [schedAdvance, if_neg (by omega)]

/-- The schedule words LOAD writes (43_compression.md R171). -/
theorem schedRead_schedWriteWords (xs : List Word) (w : Vector (Latch Word) 64) (t u : BitVec 6)
    (h : t.toNat + xs.length ≤ 64) :
    schedRead (schedWriteWords w t xs) u =
      if t.toNat ≤ u.toNat ∧ u.toNat < t.toNat + xs.length then xs[u.toNat - t.toNat]? else schedRead w u := by
  induction xs generalizing w t with
  | nil =>
    have : ¬(t.toNat ≤ u.toNat ∧ u.toNat < t.toNat + ([] : List Word).length) := by simp
    rw [if_neg this]; rfl
  | cons x xs ih =>
    simp only [List.length_cons] at h
    simp only [schedWriteWords]
    by_cases hx : xs = []
    · subst hx
      simp only [schedWriteWords, schedRead_schedWrite, List.length_cons, List.length_nil]
      by_cases hu : u = t
      · subst hu; simp
      · have : ¬(t.toNat ≤ u.toNat ∧ u.toNat < t.toNat + (0 + 1)) := by
          intro hc; exact hu (BitVec.eq_of_toNat_eq (by omega))
        rw [if_neg this, if_neg hu]
    · have hlen : 0 < xs.length := List.length_pos_iff.mpr hx
      have ht : (t + 1#6).toNat = t.toNat + 1 := by
        rw [BitVec.toNat_add]; simp; omega
      rw [ih _ _ (by omega), ht]
      by_cases hu : u = t
      · subst hu
        simp
      · have hne : u.toNat ≠ t.toNat := fun e => hu (BitVec.eq_of_toNat_eq e)
        simp only [List.length_cons, schedRead_schedWrite, if_neg hu]
        by_cases hc : t.toNat + 1 ≤ u.toNat ∧ u.toNat < t.toNat + 1 + xs.length
        · have hc' : t.toNat ≤ u.toNat ∧ u.toNat < t.toNat + (xs.length + 1) := by omega
          rw [if_pos hc, if_pos hc']
          obtain ⟨d, hd⟩ : ∃ d, u.toNat = t.toNat + 1 + d := ⟨u.toNat - (t.toNat + 1), by omega⟩
          rw [hd, show t.toNat + 1 + d - (t.toNat + 1) = d by omega, show t.toNat + 1 + d - t.toNat = d + 1 by omega]
          simp
        · have hc' : ¬(t.toNat ≤ u.toNat ∧ u.toNat < t.toNat + (xs.length + 1)) := by omega
          rw [if_neg hc, if_neg hc']

/-- LOAD leaves the words from `W[16]` on as they are (43_compression.md R171). -/
theorem schedWord_schedWriteWords_outside (xs : List Word) (w : Vector (Latch Word) 64) (t u : BitVec 6)
    (h : t.toNat + xs.length ≤ 63) (hu : t.toNat + xs.length ≤ u.toNat) :
    schedWord (schedWriteWords w t xs) u = schedWord w u := by
  induction xs generalizing w t with
  | nil => rfl
  | cons x xs ih =>
    simp only [List.length_cons] at h hu
    have ht : (t + 1#6).toNat = t.toNat + 1 := by
      rw [BitVec.toNat_add]; simp; omega
    have hne : u ≠ t := fun e => by subst e; omega
    simp only [schedWriteWords]
    rw [ih _ _ (by omega) (by omega), schedWord_schedWrite, if_neg hne]

end Sys2Proof.Machine
end

