-- ==== Sys2Proof/Laws/Port.lean ====
section
/-! SUPPORT. What one clock edge can do, said once (30_encoding.md R81, 70_reset_and_hazards.md R250 to R262). -/

namespace Sys2Proof.Machine

/-- The host's action changes only the host's side of the state. -/
theorem afterAct_eq (s : State) : ∃ l d n, afterAct s = { s with host := l, busData := d, undefReads := n } := by
  unfold afterAct
  split
  · exact ⟨_, _, _, rfl⟩
  · exact ⟨_, _, _, rfl⟩
  · unfold afterHeld; split
    · exact ⟨_, _, _, rfl⟩
    · exact ⟨_, _, _, rfl⟩
  · split
    · exact ⟨_, _, _, rfl⟩
    · exact ⟨_, _, _, rfl⟩
  · split
    · unfold afterHeld; split
      · exact ⟨_, _, _, rfl⟩
      · exact ⟨_, _, _, rfl⟩
    · exact ⟨_, _, _, rfl⟩

@[simp] theorem afterAct_params (s : State) : (afterAct s).params = s.params := by
  obtain ⟨l, d, n, h⟩ := afterAct_eq s; rw [h]
@[simp] theorem afterAct_live (s : State) : (afterAct s).live = s.live := by
  obtain ⟨l, d, n, h⟩ := afterAct_eq s; rw [h]
@[simp] theorem afterAct_fsm (s : State) : (afterAct s).fsm = s.fsm := by
  obtain ⟨l, d, n, h⟩ := afterAct_eq s; rw [h]
@[simp] theorem afterAct_seq (s : State) : (afterAct s).seq = s.seq := by
  obtain ⟨l, d, n, h⟩ := afterAct_eq s; rw [h]
@[simp] theorem afterAct_len (s : State) : (afterAct s).len = s.len := by
  obtain ⟨l, d, n, h⟩ := afterAct_eq s; rw [h]
@[simp] theorem afterAct_h (s : State) : (afterAct s).h = s.h := by
  obtain ⟨l, d, n, h⟩ := afterAct_eq s; rw [h]
@[simp] theorem afterAct_vars (s : State) : (afterAct s).vars = s.vars := by
  obtain ⟨l, d, n, h⟩ := afterAct_eq s; rw [h]
@[simp] theorem afterAct_w (s : State) : (afterAct s).w = s.w := by
  obtain ⟨l, d, n, h⟩ := afterAct_eq s; rw [h]
@[simp] theorem afterAct_buf (s : State) : (afterAct s).buf = s.buf := by
  obtain ⟨l, d, n, h⟩ := afterAct_eq s; rw [h]
@[simp] theorem afterAct_errs (s : State) : (afterAct s).errs = s.errs := by
  obtain ⟨l, d, n, h⟩ := afterAct_eq s; rw [h]
@[simp] theorem afterAct_rsp (s : State) : (afterAct s).rsp = s.rsp := by
  obtain ⟨l, d, n, h⟩ := afterAct_eq s; rw [h]
@[simp] theorem afterAct_rspValid (s : State) : (afterAct s).rspValid = s.rspValid := by
  obtain ⟨l, d, n, h⟩ := afterAct_eq s; rw [h]

/-- Serving a memory-mapped read: what the host has got, and that of a core that has been reset only the host's side changes. -/
@[simp] theorem serveRead_busData (reg : MapReg) (rest : List HostAct) (s : State) :
    (serveRead reg rest s).busData = mapRead reg s := rfl
theorem serveRead_of_live {s : State} (h : s.live = true) (reg : MapReg) (rest : List HostAct) :
    serveRead reg rest s = { s with host := rest, busData := mapRead reg s } := by simp [serveRead, h]
theorem serveRead_before_reset {s : State} (h : s.live = false) (reg : MapReg) (rest : List HostAct) :
    serveRead reg rest s = { s with host := rest, busData := mapRead reg s, undefReads := s.undefReads + 1 } := by
  simp [serveRead, h]

/-- After a reset the host reads RSP and STATUS as they are; before it, free values. -/
theorem hostRsp_of_live {s : State} (h : s.live = true) : hostRsp s = s.rsp := by simp [hostRsp, h]
theorem hostStatus_of_live {s : State} (h : s.live = true) : hostStatus s = statusWord s := by simp [hostStatus, h]
theorem hostRsp_before_reset {s : State} (h : s.live = false) :
    hostRsp s = undefinedResponse (Config.undefinedRead s.undefReads) s := by simp [hostRsp, h]
theorem hostStatus_before_reset {s : State} (h : s.live = false) :
    hostStatus s = undefinedStatus ((Config.undefinedRead s.undefReads).extractLsb' 0 16) s := by simp [hostStatus, h]

/-- Every FSM value and every cause but NONE comes from some free bits, and no other cause does. -/
theorem fsm_ofBits_surjective (f : Fsm) : ∃ x, Fsm.ofBits x = f := by
  cases f
  · exact ⟨0#2, rfl⟩
  · exact ⟨1#2, rfl⟩
  · exact ⟨2#2, rfl⟩
  · exact ⟨3#2, rfl⟩
theorem cause_ofBits_surjective {c : Cause} (h : c ≠ .none) : ∃ x, Cause.ofBits x = c := by
  cases c
  · exact absurd rfl h
  · exact ⟨0#2, rfl⟩
  · exact ⟨1#2, rfl⟩
  · exact ⟨2#2, rfl⟩
  · exact ⟨3#2, rfl⟩
theorem cause_ofBits_ne_none (x : BitVec 2) : Cause.ofBits x ≠ .none := by revert x; decide

/-- A free error record names a cause exactly when it has an error. -/
theorem undefinedErrs_ecode (x : BitVec 16) : (undefinedErrs x).ecode = .none ↔ (undefinedErrs x).err = false := by
  cases h : x.getLsbD 3 <;> simp [undefinedErrs, h, cause_ofBits_ne_none]

/-- The memory map with a base that is a multiple of 4: the register at an aligned offset, and a refusal elsewhere in the window
(20_memory.md R58). -/
theorem mapAccess_aligned {s : State} (hb : s.params.coreBase % 4 = 0) {off : Nat} (hlt : off < 16) (ho : off % 4 = 0) :
    mapAccess s (s.params.coreBase + off) 4 = .ok (mapRegOf off) := by
  have h1 : ¬(s.params.coreBase + off < s.params.coreBase ∨ s.params.coreBase + 16 ≤ s.params.coreBase + off) := by omega
  have h2 : busAccessWf s.params.coreBase (s.params.coreBase + off) 4 = true := by
    simp [busAccessWf, ho]; omega
  rw [mapAccess, if_neg h1, if_pos h2, Nat.add_sub_cancel_left]
theorem mapAccess_cmd {s : State} (hb : s.params.coreBase % 4 = 0) : mapAccess s s.params.coreBase 4 = .ok .cmd :=
  mapAccess_aligned hb (off := 0) (by decide) (by decide)
theorem mapAccess_undefined {s : State} {off size : Nat} (hlt : off < 16)
    (h : size ≠ 4 ∨ (s.params.coreBase + off) % 4 ≠ 0 ∨ off % 4 ≠ 0) :
    mapAccess s (s.params.coreBase + off) size = .error .busAccess := by
  have h1 : ¬(s.params.coreBase + off < s.params.coreBase ∨ s.params.coreBase + 16 ≤ s.params.coreBase + off) := by omega
  have h2 : ¬busAccessWf s.params.coreBase (s.params.coreBase + off) size = true := by
    simp [busAccessWf]; omega
  rw [mapAccess, if_neg h1, if_neg h2]

/-- A ready core takes a presented command off the host's list; a core that is not ready leaves it there (R81). -/
theorem afterAct_send {s : State} {w : Word} {rest : List HostAct} (hh : s.host = .send w :: rest) :
    afterAct s = if cmdReady s then { s with host := rest } else s := by
  simp [afterAct, hh, afterHeld]

theorem cmdReady_iff (s : State) : cmdReady s = true ↔ Ready s := by
  simp [cmdReady, Ready]

/-- Everything an edge can do when it answers a next state: reset, a sequencer step, an accepted word, or rest. -/
theorem clockEdge_next {p : Pins} {s t : State} (h : clockEdge p s = .next t) :
    (p.rstN = false ∧ t = resetEdge s) ∨
      (p.rstN = true ∧ s.live = true ∧ s.fsm = .busy ∧ tick s = .next t) ∨
      (p.rstN = true ∧ p.cmdValid = true ∧ Ready s ∧ acceptWord p.cmdWord s = .next t) ∨
      (p.rstN = true ∧ p.cmdValid = false ∧ ¬(s.live = true ∧ s.fsm = .busy) ∧ t = restEdge s) := by
  unfold clockEdge at h
  cases hr : p.rstN <;> simp only [hr, Bool.not_false, Bool.not_true, if_true, Bool.false_eq_true, if_false] at h
  · exact .inl ⟨rfl, by simpa using h.symm⟩
  · right
    split at h
    · rename_i hb
      simp only [Bool.and_eq_true, beq_iff_eq] at hb
      exact .inl ⟨rfl, hb.1, hb.2, h⟩
    · rename_i hb
      simp only [Bool.and_eq_true, beq_iff_eq] at hb
      right
      cases hv : p.cmdValid <;> simp only [hv, Bool.false_eq_true, if_true, if_false] at h
      · exact .inr ⟨rfl, rfl, hb, by simpa using h.symm⟩
      · rcases accepting_next h with ⟨hl, hbz, -⟩ | ⟨hrdy, -⟩
        · exact absurd ⟨hl, hbz⟩ hb
        · exact .inl ⟨rfl, rfl, hrdy, h⟩

/-- A step that answers a next state is an edge with the host's action on the ports. -/
theorem step_next {s t : State} (h : step s = .next t) :
    actRefusal s = none ∧ clockEdge (pinsAt s) (afterAct s) = .next t := by
  unfold step hostEdge at h
  split at h
  · cases h
  · rename_i hn; exact ⟨hn, h⟩

/-- Everything an accepted word can do when it answers a next state (30_encoding.md R75). -/
theorem acceptWord_next {w : Word} {s t : State} (hr : Ready s) (h : acceptWord w s = .next t) :
    (∃ i, decode w = .cmd i ∧ exec i s = .next t) ∨
      (decode w = .illegal ∧ t = errorState .illegalOpc s) ∨ (decode w = .reserved ∧ t = errorState .rsvdBits s) := by
  unfold acceptWord at h
  rw [accepting_of_ready hr] at h
  split at h
  · rename_i i hd; exact .inl ⟨i, hd, h⟩
  · rename_i hd; exact .inr (.inl ⟨hd, by simpa [commandError] using h.symm⟩)
  · rename_i hd; exact .inr (.inr ⟨hd, by simpa [commandError] using h.symm⟩)

/-- A run of a machine, one step at a time. -/
theorem core_run_succ (M : Host.Core) (n : Nat) (s : M.State) :
    M.run (n + 1) s =
      match M.step s with
      | .next s' => M.run n s'
      | .fault r => .fault r
      | .refused r => .refused r := rfl

/-- A run whose first step answers a next state goes on from it. -/
theorem run_succ_next {s t : State} (n : Nat) (h : step s = .next t) :
    Host.Core.run Sys2Proof.core (n + 1) s = Host.Core.run Sys2Proof.core n t := by
  have h' : Sys2Proof.core.step s = .next t := h
  exact (core_run_succ Sys2Proof.core n s).trans (by rw [h'])

/-- A run whose first step faults ends in that fault. -/
theorem run_succ_fault {s : State} {r : Fault} (n : Nat) (h : step s = .fault r) :
    Host.Core.run Sys2Proof.core (n + 1) s = .fault r := by
  have h' : Sys2Proof.core.step s = .fault r := h
  exact (core_run_succ Sys2Proof.core n s).trans (by rw [h'])

/-- A run whose first step is refused ends in that refusal. -/
theorem run_succ_refused {s : State} {r : Refusal} (n : Nat) (h : step s = .refused r) :
    Host.Core.run Sys2Proof.core (n + 1) s = .refused r := by
  have h' : Sys2Proof.core.step s = .refused r := h
  exact (core_run_succ Sys2Proof.core n s).trans (by rw [h'])

end Sys2Proof.Machine
end

