-- ==== Sys2Proof/Laws/Transaction.lean ====
section
/-! SUPPORT. Small lemmas about draining the sequencer, runs of transactions, schedules and sequences of blocks, and bytes of
BUF read in order. -/

namespace Sys2Proof.Machine

/-- Draining a BUSY state takes one sequencer step first. -/
theorem drain_busy {n : Nat} {s t : State} (hb : s.fsm = .busy) (h : tick s = .next t) : drain (n + 1) s = drain n t := by
  simp [drain, hb, h]

/-- Draining a state that is not BUSY does nothing. -/
theorem drain_not_busy {n : Nat} {s : State} (hb : s.fsm ≠ .busy) : drain n s = .next s := by
  cases n <;> simp [drain, hb]

/-- A run of transactions whose first part answers a next state goes on from it. -/
theorem transactAll_append {is : List Instr} (js : List Instr) {s t : State} (h : transactAll is s = .next t) :
    transactAll (is ++ js) s = transactAll js t := by
  induction is generalizing s with
  | nil => simp only [transactAll, Host.Outcome.next.injEq] at h; subst h; rfl
  | cons i is ih =>
    simp only [transactAll, List.cons_append] at h ⊢
    split at h
    · exact ih h
    · cases h
    · cases h

theorem length_lengthFieldOf (l : BitVec 29) : (lengthFieldOf l).length = 8 := rfl

/-- The last byte read is the one just written behind the others. -/
theorem Memory.readBytes_write {m : Memory} {n : Nat} {bs : List Byte} {b : Byte} (h : m.readBytes n 0 = some bs) :
    (m.write n b).readBytes (n + 1) 0 = some (bs ++ [b]) := by
  obtain ⟨hl, hr⟩ := (Memory.readBytes_eq_some _ _ _ _).mp h
  refine (Memory.readBytes_eq_some _ _ _ _).mpr ⟨by simp [hl], fun i hi => ?_⟩
  rw [Memory.read_write]
  split
  · rename_i e; rw [Nat.zero_add] at e; subst e; simp [← hl]
  · rw [hr i (by omega), List.getElem?_append_left (by omega)]

/-- Bytes written behind the bytes read so far are read after them. -/
theorem Memory.readBytes_writeBytes {m : Memory} {n : Nat} {bs cs : List Byte} (h : m.readBytes n 0 = some bs) :
    (m.writeBytes n cs).readBytes (n + cs.length) 0 = some (bs ++ cs) := by
  obtain ⟨hl, hr⟩ := (Memory.readBytes_eq_some _ _ _ _).mp h
  refine (Memory.readBytes_eq_some _ _ _ _).mpr ⟨by simp [hl], fun i hi => ?_⟩
  rw [Memory.read_writeBytes]
  split
  · rw [List.getElem?_append_right (by omega), hl]; simp
  · rw [hr i (by omega), List.getElem?_append_left (by omega)]

theorem length_extendBy (n : Nat) (ws : List Word) : (extendBy n ws).length = ws.length + n := by
  induction n generalizing ws with
  | zero => rfl
  | succ n ih => simp [extendBy, ih, extendSchedule]; omega

/-- Extending a schedule keeps the words it has. -/
theorem extendBy_prefix (n : Nat) (ws : List Word) (i : Nat) (h : i < ws.length) : (extendBy n ws)[i]? = ws[i]? := by
  induction n generalizing ws with
  | zero => rfl
  | succ n ih =>
    rw [extendBy, ih _ (by simp [extendSchedule]; omega)]
    simp [extendSchedule, List.getElem?_append_left h]

/-- One more block is compressed after the others. -/
theorem compressBlocks_succ (n : Nat) (h : Vector Word 8) (P : List Byte) :
    compressBlocks (n + 1) h P = compress (compressBlocks n h P) ((P.drop (64 * n)).take 64) := by
  induction n generalizing h P with
  | zero => simp [compressBlocks]
  | succ n ih =>
    rw [compressBlocks, ih, compressBlocks, List.drop_drop, show 64 + 64 * n = 64 * (n + 1) by omega]

/-- Compressing the first blocks reads no byte after them. -/
theorem compressBlocks_append (n : Nat) (h : Vector Word 8) (P Q : List Byte) (hl : 64 * n ≤ P.length) :
    compressBlocks n h (P ++ Q) = compressBlocks n h P := by
  induction n generalizing h P with
  | zero => rfl
  | succ n ih =>
    rw [compressBlocks, compressBlocks, List.take_append_of_le_length (by omega),
      List.drop_append_of_le_length (by omega), ih _ _ (by simp; omega)]

end Sys2Proof.Machine
end

