-- ==== Sys2Proof/Tests/Slice0.lean ====
section
/-! SUPPORT. The model's own tests: what the checks refuse, words and values written out from the spec, single steps, and for each
statement with hypotheses a state and operands that meet them. -/

namespace Sys2Proof.Tests

open Sys2Proof.Machine

/-! ## What the checks refuse (30_encoding.md R76, 20_memory.md R58) -/

theorem test_wf_refuses_push_256 : (AsmLine.push 256).wf = false := by decide
theorem test_wf_admits_push_255 : (AsmLine.push 255).wf = true := by decide
theorem test_wf_refuses_rdhex_64 : (AsmLine.rdhex 64).wf = false := by decide
theorem test_wf_refuses_word_33_bits : (AsmLine.word 4294967296).wf = false := by decide
theorem test_wf_refuses_pushb_256 : (AsmLine.pushb [0, 256]).wf = false := by decide
theorem test_wf_refuses_halfword_access : busAccessWf 4096 4096 2 = false := by decide
theorem test_wf_refuses_misaligned_access : busAccessWf 4096 4098 4 = false := by decide
theorem test_wf_refuses_misaligned_base : busAccessWf 4098 4098 4 = false ∧ busAccessWf 4098 4100 4 = false := by decide

/-! ## Decoding words written out from R70 to R73, [31:16] RSV1, [15:8] ARG, [7:4] RSV0, [3:0] OPC (vectors of T13) -/

theorem test_decode_nop : decode 0b0000000000000000_00000000_0000_0000#32 = .cmd .nop := by decide
theorem test_decode_init : decode 0b0000000000000000_00000000_0000_0001#32 = .cmd .init := by decide
theorem test_decode_push : decode 0b0000000000000000_01100001_0000_0010#32 = .cmd (.push 0x61#8) := by decide
theorem test_decode_final : decode 0b0000000000000000_00000000_0000_0011#32 = .cmd .final := by decide
theorem test_decode_rdhex : decode 0b0000000000000000_00111111_0000_0100#32 = .cmd (.rdhex 63#6) := by decide
theorem test_decode_clrerr : decode 0b0000000000000000_00000000_0000_0101#32 = .cmd .clrerr := by decide
theorem test_decode_illegal_first : decode 0x00000106#32 = .illegal := by decide
theorem test_decode_all_ones : decode 0xFFFFFFFF#32 = .illegal := by decide
theorem test_decode_rdhex_bit_14 : decode 0x00004004#32 = .reserved := by decide
theorem test_decode_push_bit_16 : decode 0x00010002#32 = .reserved := by decide
theorem test_decode_final_bit_31 : decode 0x80000003#32 = .reserved := by decide
theorem test_encode_push_ff : encode (.push 0xFF#8) = 0x0000FF02#32 := by decide
theorem test_encode_rdhex_63 : encode (.rdhex 63#6) = 0x00003F04#32 := by decide
theorem test_table_word_push : decodeTableWord 32 0x00006102 = some (.push 0x61#8) := by decide

/-! ## Values of 95_test_vectors.md -/

/-- T2: K at t = 0, 30 and 63. -/
theorem test_rom : [Rom.k 0#6, Rom.k 30#6, Rom.k 63#6] = [0xd76aa478#32, 0x676f02d9#32, 0xeb86d391#32] := by decide

/-- T3: s0 and s1 of 0x12345678. -/
theorem test_small_sigmas :
    smallSigma0 0x12345678#32 = 0xe7fce6ee#32 ∧ smallSigma1 0x12345678#32 = 0xa1f78649#32 := by decide

/-- T8: S0 and S1 of 0x12345678. -/
theorem test_big_sigmas :
    bigSigma0 0x12345678#32 = 0x66146474#32 ∧ bigSigma1 0x12345678#32 = 0x3561abda#32 := by decide

/-- T8: Ch and Maj. -/
theorem test_choice : choice 0x510e527f#32 0x9b05688c#32 0x1f83d9ab#32 = 0x1f85c98c#32 := by decide
theorem test_majority : majority 0x6a09e667#32 0xbb67ae85#32 0x3c6ef372#32 = 0x3a6fe667#32 := by decide

/-- T4: the length field of L = 55, from the counter. -/
theorem test_length_field :
    lengthFieldOf 55#29 = [0xb8#8, 0x01#8, 0#8, 0#8, 0xb8#8, 0x01#8, 0#8, 0#8] := by decide

/-- T4: the length field of L = 2^29 + 3, as a function of the length. -/
theorem test_length_field_wraps :
    lengthField 536870915 = [0x18#8, 0#8, 0#8, 0#8, 0x18#8, 0#8, 0#8, 0#8] := by decide

/-- R52: the bytes 61 62 63 80 give the word 0x61626380. -/
theorem test_word_be : wordsOf [0x61#8, 0x62#8, 0x63#8, 0x80#8] = [0x61626380#32] := by decide

/-- T12: digits of H[0] = f19564cd and H[7] = a9aada08. -/
theorem test_hex_digits :
    [hexAt #v[0xf19564cd#32, 0#32, 0#32, 0#32, 0#32, 0#32, 0#32, 0xa9aada08#32] 0#6,
      hexAt #v[0xf19564cd#32, 0#32, 0#32, 0#32, 0#32, 0#32, 0#32, 0xa9aada08#32] 1#6,
      hexAt #v[0xf19564cd#32, 0#32, 0#32, 0#32, 0#32, 0#32, 0#32, 0xa9aada08#32] 63#6] =
    [0x66#8, 0x31#8, 0x38#8] := by decide

/-- The candidate H_INIT of 95_test_vectors.md, for tests only. -/
def cand : Vector Word 8 :=
  #v[0x6a09e667#32, 0xbb67ae85#32, 0x3c6ef372#32, 0xa54ff53a#32, 0x510e527f#32, 0x9b05688c#32, 0x1f83d9ab#32,
    0x5be0cd19#32]

/-- T10: compress of the "abc" block from the candidate. -/
theorem test_compress_abc :
    compress cand (pad [0x61#8, 0x62#8, 0x63#8]) =
      #v[0xf19564cd#32, 0x80a249f0#32, 0xa1e3edc4#32, 0xa09e57d8#32, 0x74401441#32, 0x0f185ea1#32, 0x19c1e4cb#32,
        0xa9aada08#32] := by decide +kernel

/-- R76: a line of text, with its comment. -/
theorem test_parse_push :
    assembleText [['p', 'u', 's', 'h', ' ', '\'', 'a', '\'', ' ', ';', 'x']] = some [0x00006102#32] := by decide

/-- R77: the UTF-8 bytes of U+00E9 (T11's "c3 a9"). -/
theorem test_utf8 : utf8 'é' = [0xc3#8, 0xa9#8] := by decide

/-- R77: an operand of PUSHB and a raw word out of range. -/
theorem test_assemble_out_of_range : assemble (.pushb [0, 256]) = none ∧ assemble (.word 4294967296) = none := by decide

/-! ## States -/

def params : Params := { hInit := cand, lenGuard := false, coreBase := 4096 }
def guarded : Params := { params with lenGuard := true }
def idleS : State := State.resetOf params
def filled (n : Nat) : Memory := (List.range n).map fun a => (a, 0x61#8)

/-- A message of `n` < 64 bytes 'a' is open. -/
def absorbS (n : Nat) : State :=
  { idleS with fsm := .absorb, h := Latch.put cand, len := BitVec.ofNat 29 n, buf := filled n }

/-- The guard is built in and 2^29 - 1 bytes have been pushed. -/
def fullS : State := { absorbS 63 with params := guarded, len := lastLen }
def doneS : State := { idleS with fsm := .done, h := Latch.put (cand.set 0 0xf19564cd#32) }
def errS : State := { absorbS 0 with errs := { err := true, ecode := .seq, eovf := false } }
def wordsW (n : Nat) : Vector (Latch Word) 64 := schedWriteWords unwrittenSchedule 0#6 (List.replicate n 7#32)

/-- BUSY at a sequencer step, with every cell the step reads written. -/
def busyS (u : Sub) (t : BitVec 6) (p : Bool) : State :=
  { idleS with
    fsm := .busy
    h := Latch.put cand
    vars := Latch.put (varsOfHash cand)
    w := wordsW 64
    buf := filled 64
    seq := { sub := u, tcnt := t, pend2 := p, ret := .done } }

/-! ## Single steps, from T14 and P2 -/

/-- The outcome's state, for reading one field of it. -/
def after (r : Result) : Option State :=
  match r with
  | .next t => some t
  | .fault _ => none
  | .refused _ => none

theorem test_nop_after_reset : (after (exec .nop idleS)).map State.rsp = some 0x00000000#32 := by decide
theorem test_init_response : (after (exec .init idleS)).map State.rsp = some 0x00010000#32 := by decide
theorem test_push_response :
    (after (exec (.push 0x61#8) (absorbS 0))).map (fun t => (t.rsp, t.len, t.buf)) =
      some (0x00010000#32, 1#29, [(0, 0x61#8)]) := by decide
theorem test_push_in_idle : (after (exec (.push 0x61#8) idleS)).map State.rsp = some 0x00380000#32 := by decide
theorem test_push_too_large : (after (exec (.push 0x61#8) fullS)).map State.rsp = some 0x02490000#32 := by decide
theorem test_push_64th_is_busy :
    (after (exec (.push 0x61#8) (absorbS 63))).map (fun t => (t.fsm, t.len, fillLevel t.len)) =
      some (.busy, 64#29, 0#6) := by decide
theorem test_rdhex_response : (after (exec (.rdhex 0#6) doneS)).map State.rsp = some 0x00030066#32 := by decide
theorem test_rdhex_in_absorb : (after (exec (.rdhex 0#6) (absorbS 0))).map State.rsp = some 0x00390000#32 := by decide
theorem test_clrerr_response : (after (exec .clrerr errS)).map State.rsp = some 0x00010000#32 := by decide
theorem test_final_in_done : (after (exec .final doneS)).map State.rsp = some 0x003b0000#32 := by decide

/-- T5: the closing block of "aaa" has the marker at byte 3 and the bits 0x18 at bytes 56 and 60. -/
theorem test_final_pads :
    (after (exec .final (absorbS 3))).map (fun t =>
      ([2, 3, 4, 56, 60].map t.buf.read, t.seq.pend2)) =
      some ([some 0x61#8, some 0x80#8, some 0#8, some 0x18#8, some 0x18#8], false) := by decide

theorem test_final_two_blocks :
    (after (exec .final (absorbS 56))).map (fun t => (t.buf.read 56, t.buf.read 57, t.buf.read 63, t.seq.pend2)) =
      some (some 0x80#8, some 0#8, some 0#8, true) := by decide

/-- P2: an illegal word while ERR = 1 sets EOVF and keeps ECODE. -/
theorem test_step_illegal_word :
    (after (step { errS with fsm := .idle, host := [.send 0x00000006#32] })).map State.rsp = some 0x01380000#32 := by
  decide

theorem test_step_fetches :
    (after (step (idleS.withFetchWord 32 0x00000001))).map (fun t => (t.fsm, t.host)) = some (.absorb, []) := by decide

theorem test_step_reset_in_busy :
    (after (step { busyS .round 5#6 false with host := [.drive ⟨false, true, 1#32⟩] })).map
      (fun t => (t.fsm, t.h.get?, t.rspValid)) = some (.idle, none, false) := by decide

theorem test_step_holds_in_busy :
    (after (step { busyS .load 0#6 false with host := [.send 3#32] })).map (fun t => (t.seq.sub, t.host)) =
      some (.round, [.send 3#32]) := by decide

/-- P6: STATUS through the memory map. -/
theorem test_step_reads_status :
    (after (step { absorbS 0 with host := [.busRead 4104 4] })).map State.busData = some 0x00000001#32 := by decide

/-- R58, R82: before the first reset the reserved word reads as 0, and a read of STATUS has only 0 above bit 9. -/
theorem test_step_reads_before_reset :
    (after (step (State.powerOn params [.busRead 4108 4]))).map State.busData = some 0#32 ∧
      ∃ t, step (State.powerOn params [.busRead 4104 4]) = .next t ∧ t.busData.extractLsb' 10 22 = 0#22 := by
  refine ⟨by decide, _, rfl, ?_⟩
  change ((statusWord _).setWidth 32).extractLsb' 10 22 = 0#22
  ext i hi
  simp only [statusWord, BitVec.getElem_extractLsb', BitVec.getLsbD_setWidth, BitVec.getLsbD_append, BitVec.getElem_zero]
  rw [if_neg (by omega), if_neg (by omega), if_neg (by omega), if_neg (by omega), if_neg (by omega)]
  simp

theorem test_round_advances :
    (after (tick (busyS .round 5#6 false))).map (fun t => (t.seq.tcnt, t.seq.sub)) = some (6#6, .round) := by decide

theorem test_round_63_goes_to_fold :
    (after (tick (busyS .round 63#6 false))).map (fun t => (t.seq.tcnt, t.seq.sub)) = some (63#6, .fold) := by decide

theorem test_fold_builds_second_block :
    (after (tick (busyS .fold 63#6 true))).map (fun t => (t.fsm, t.seq.sub, t.seq.pend2, t.buf.read 55)) =
      some (.busy, .load, false, some 0#8) := by decide

/-! ## Witnesses: for each statement with hypotheses, a state and operands that meet them -/

theorem idleS_ready : Ready idleS := ⟨rfl, by decide⟩
theorem absorbS_ready (n : Nat) : Ready (absorbS n) := ⟨rfl, by simp [absorbS]⟩
theorem doneS_ready : Ready doneS := ⟨rfl, by decide⟩
theorem errS_ready : Ready errS := ⟨rfl, by decide⟩
theorem fullS_ready : Ready fullS := ⟨rfl, by decide⟩

theorem busyS_sound (u : Sub) (t : BitVec 6) (p : Bool) : Sound (busyS u t p) where
  buf_wf := by
    change (filled 64).wf = true
    decide +kernel
  hash_written := fun _ => rfl
  absorb_buf := fun h => by cases h
  load_buf := fun _ _ => by
    have : ∀ a, a < 64 → ((filled 64).read a).isSome = true := by decide +kernel
    exact this
  vars_written := fun _ _ => rfl
  round_sched := fun _ _ => by
    have : ∀ v : BitVec 6, (schedRead (wordsW 64) v).isSome = true := by decide +kernel
    exact fun v _ => this v
  ret_absorb := fun _ h => by cases h
  pend2_busy := fun _ => rfl
  err_clear := fun _ => ⟨rfl, rfl⟩
  err_set := fun h => by cases h
  rsp_zero := by
    change (0#32).extractLsb' 8 8 = 0#8
    decide
  rsp_not_busy := by
    change (0#32).extractLsb' 16 3 ≠ 2#3
    decide

theorem idleS_sound : Sound idleS where
  buf_wf := rfl
  hash_written := fun h => absurd rfl h
  absorb_buf := fun h => by cases h
  load_buf := fun h => by cases h
  vars_written := fun h => by cases h
  round_sched := fun h => by cases h
  ret_absorb := fun h => by cases h
  pend2_busy := fun h => by cases h
  err_clear := fun _ => ⟨rfl, rfl⟩
  err_set := fun h => by cases h
  rsp_zero := by decide
  rsp_not_busy := by decide

theorem test_witness_DecodedWordIsEncoded : decode 0x0000FF02#32 = .cmd (.push 0xFF#8) := by decide

theorem test_witness_SpelledAndReservedWords :
    Ready idleS ∧ decode 0x00000010#32 = .reserved ∧ decode 0x80000003#32 = .reserved ∧
      decode 0x0000FF02#32 = .cmd (.push 0xFF#8) ∧ decode 0x00003F04#32 = .cmd (.rdhex 63#6) :=
  ⟨idleS_ready, by decide, by decide, by decide, by decide⟩

theorem test_witness_AssemblerEmitsCommands :
    assemble (.pushb [0, 255]) = some [0x00000002#32, 0x0000FF02#32] ∧
      (∀ n, AsmLine.pushb [0, 255] ≠ .word n) ∧ 256 ∈ [0, 256] ∧ 256 ≤ 256 ∧ 64 ≤ 64 ∧ 2 ^ 32 ≤ 4294967296 :=
  ⟨by decide, by simp, by decide, by decide, by decide, by decide⟩

theorem test_witness_StepRunsDecodedCommand :
    (Ready { idleS with host := [.send 1#32] } ∧ decode 1#32 = .cmd .init) ∧
      Ready { idleS with host := [.drive ⟨true, true, 1#32⟩] } ∧
      Ready { idleS with host := [.busWrite idleS.params.coreBase 4 1#32] } ∧ idleS.params.coreBase % 4 = 0 :=
  ⟨⟨⟨rfl, by decide⟩, by decide⟩, ⟨rfl, by decide⟩, ⟨rfl, by decide⟩, rfl⟩

/-- One state and word for each clause: OPC 6 and F, a reserved word, SEQ, TOO_LARGE, and no error. -/
theorem test_witness_ErrorPriority :
    Ready idleS ∧ 6 ≤ (opcOf 0x00000106#32).toNat ∧
      (opcOf 0x00010002#32).toNat < 6 ∧ 0x00010002#32 &&& mustBeZero (opcOf 0x00010002#32) ≠ 0#32 ∧
      (decode 0x00006102#32 = .cmd (.push 0x61#8) ∧ legalIn (.push 0x61#8) idleS.fsm = false) ∧
      (Ready fullS ∧ fullS.fsm = .absorb ∧ fullS.params.lenGuard = true ∧ fullS.len = lastLen) ∧
      (decode 0#32 = .cmd .nop ∧ legalIn .nop idleS.fsm = true) :=
  ⟨idleS_ready, by decide, by decide, by decide, ⟨by decide, by decide⟩,
    ⟨fullS_ready, rfl, rfl, rfl⟩, ⟨by decide, by decide⟩⟩

theorem test_witness_BusyHoldsCommands : (busyS .load 0#6 false).live = true ∧ (busyS .load 0#6 false).fsm = .busy :=
  ⟨rfl, rfl⟩

theorem test_witness_ResetEdgeValues :
    ({ busyS .round 7#6 true with host := [.drive ⟨false, true, 3#32⟩] }).host = [.drive ⟨false, true, 3#32⟩] ∧
      (⟨false, true, 3#32⟩ : Pins).rstN = false := ⟨rfl, rfl⟩

theorem test_witness_BeforeFirstReset :
    (State.powerOn params [.send 0#32]).live = false ∧ (State.powerOn params [.send 0#32]).host = [.send 0#32] ∧
      (State.powerOn params [.drive ⟨true, true, 1#32⟩]).host = [.drive ⟨true, true, 1#32⟩] ∧
      (State.powerOn params [.busWrite 4096 4 1#32]).host =
        [.busWrite (State.powerOn params []).params.coreBase 4 1#32] ∧
      (State.powerOn params []).params.coreBase % 4 = 0 ∧
      (∀ off ∈ [0, 4, 8, 12], (State.powerOn params [.busRead (4096 + off) 4]).host =
        [.busRead ((State.powerOn params []).params.coreBase + off) 4]) ∧
      (∀ off ∈ [4, 8, 12], (State.powerOn params [.busWrite (4096 + off) 4 5#32]).host =
        [.busWrite ((State.powerOn params []).params.coreBase + off) 4 5#32]) :=
  ⟨rfl, rfl, rfl, rfl, rfl, fun _ _ => rfl, fun _ _ => rfl⟩

theorem test_witness_OutputsAndQuietEdge : idleS.live = true ∧ idleS.fsm ≠ .busy ∧ idleS.host = [] :=
  ⟨rfl, by decide, rfl⟩

/-- A read at each offset and a write at each ignored offset, both ready and BUSY, CMD ready and BUSY, and accesses X9
refuses: a halfword at offset 0, a word at offset 15, and, with CORE_BASE = 4098, words at offsets 0 and 2. -/
theorem test_witness_MemoryMap :
    idleS.live = true ∧ idleS.fsm ≠ .busy ∧ idleS.params.coreBase % 4 = 0 ∧
      (∀ off ∈ [0, 4, 8, 12], ∃ x, (off, x) ∈ [(0, 0#32), (4, idleS.rsp), (8, (statusWord idleS).setWidth 32), (12, 0#32)]) ∧
      (busyS .load 0#6 false).live = true ∧ (busyS .load 0#6 false).fsm = .busy ∧
      { busyS .load 0#6 false with host := [.busRead (4096 + 8) 4] }.host =
        [.busRead ((busyS .load 0#6 false).params.coreBase + 8) 4] ∧
      { busyS .load 0#6 false with host := [.busWrite (4096 + 12) 4 5#32] }.host =
        [.busWrite ((busyS .load 0#6 false).params.coreBase + 12) 4 5#32] ∧ ((0 : Nat) < 16 ∧ (2 : Nat) ≠ 4) ∧ ((15 : Nat) < 16 ∧ 15 % 4 ≠ 0) ∧
      ((State.resetOf { params with coreBase := 4098 }).live = true ∧
        ((State.resetOf { params with coreBase := 4098 }).params.coreBase + 0) % 4 ≠ 0 ∧ 2 % 4 ≠ 0) := by
  refine ⟨rfl, by decide, rfl, ?_, rfl, rfl, rfl, rfl, by decide, by decide, rfl, by decide, by decide⟩
  intro off h
  simp only [List.mem_cons, List.not_mem_nil, or_false] at h
  rcases h with rfl | rfl | rfl | rfl
  · exact ⟨0#32, by simp⟩
  · exact ⟨idleS.rsp, by simp⟩
  · exact ⟨(statusWord idleS).setWidth 32, by simp⟩
  · exact ⟨0#32, by simp⟩

/-- An edge that writes a response, and one that does not. -/
theorem test_witness_ResponseCarriesStatus :
    (∃ t, step { idleS with host := [.send 0#32] } = .next t ∧ t.rspValid = true) ∧
      ∃ t, step idleS = .next t ∧ t.rspValid = false ∧ (pinsAt idleS).rstN = true :=
  ⟨⟨_, rfl, rfl⟩, ⟨_, rfl, rfl, rfl⟩⟩

theorem test_witness_NopRule :
    Ready idleS ∧ opcOf 0x00000010#32 = 0x0#4 ∧ params.lenGuard = false ∧ (busyS .load 0#6 false).live = true ∧
      (busyS .load 0#6 false).fsm = .busy :=
  ⟨idleS_ready, by decide, rfl, rfl, rfl⟩

theorem test_witness_InitRule : Ready idleS ∧ (∃ t, exec .init idleS = .next t) ∧ params.lenGuard = false :=
  ⟨idleS_ready, ⟨_, rfl⟩, rfl⟩

theorem test_witness_ClrerrRule :
    (Ready errS ∧ statusWord errS = 0x0039#16) ∧ (Ready idleS ∧ Sound idleS ∧ idleS.errs.err = false) ∧
      opcOf 0x00010005#32 = 0x5#4 ∧ (0x00010005#32 : Word) ≠ 0x00000005#32 :=
  ⟨⟨errS_ready, by decide⟩, ⟨idleS_ready, idleS_sound, rfl⟩, by decide, by decide⟩

theorem test_witness_RdhexRule :
    (Ready idleS ∧ idleS.fsm ≠ .done) ∧
      (Ready doneS ∧ doneS.fsm = .done ∧ doneS.h.get? = some (cand.set 0 0xf19564cd#32) ∧
        doneS.h.val[0] = 0xF19564CD#32 ∧ statusWord doneS = 0x0003#16) ∧
      opcOf 0x00004004#32 = 0x4#4 ∧ 0x00004004#32 &&& 0xFFFFC0F0#32 ≠ 0#32 :=
  ⟨⟨idleS_ready, by decide⟩, ⟨doneS_ready, rfl, rfl, by decide, by decide⟩, by decide, by decide⟩

/-- One state for each clause: not ABSORB; the guard; a byte that does not fill the block; one that does. -/
theorem test_witness_PushAcceptance :
    (Ready idleS ∧ idleS.fsm ≠ .absorb) ∧
      (Ready fullS ∧ fullS.fsm = .absorb ∧ fullS.params.lenGuard = true ∧ fullS.len = lastLen) ∧
      (Ready (absorbS 62) ∧ (absorbS 62).fsm = .absorb ∧ (absorbS 62).params.lenGuard = false ∧
        fillLevel (absorbS 62).len ≠ 63#6) ∧
      (Ready (absorbS 63) ∧ (absorbS 63).fsm = .absorb ∧ fillLevel (absorbS 63).len = 63#6) :=
  ⟨⟨idleS_ready, by decide⟩, ⟨fullS_ready, rfl, rfl, rfl⟩, ⟨absorbS_ready _, rfl, rfl, by decide⟩,
    ⟨absorbS_ready _, rfl, by decide⟩⟩

theorem test_witness_LengthGuard :
    (Ready (absorbS 0) ∧ (absorbS 0).fsm = .absorb ∧ (absorbS 0).params.lenGuard = false) ∧
      (Ready fullS ∧ fullS.fsm = .absorb ∧ fullS.params.lenGuard = true ∧ fullS.len = lastLen) :=
  ⟨⟨absorbS_ready _, rfl, rfl⟩, ⟨fullS_ready, rfl, rfl, rfl⟩⟩

/-- One state for each clause: not ABSORB; f = 0, 55, 56 and 63. -/
theorem test_witness_FinalAcceptance :
    (Ready idleS ∧ idleS.fsm ≠ .absorb) ∧
      (Ready (absorbS 0) ∧ (absorbS 0).fsm = .absorb ∧ (fillLevel (absorbS 0).len).toNat ≤ 55) ∧
      (Ready (absorbS 55) ∧ (absorbS 55).fsm = .absorb ∧ (fillLevel (absorbS 55).len).toNat = 55) ∧
      (Ready (absorbS 56) ∧ (absorbS 56).fsm = .absorb ∧ (fillLevel (absorbS 56).len).toNat = 56) ∧
      (Ready (absorbS 63) ∧ (absorbS 63).fsm = .absorb ∧ (fillLevel (absorbS 63).len).toNat = 63) :=
  ⟨⟨idleS_ready, by decide⟩, ⟨absorbS_ready _, rfl, by decide⟩, ⟨absorbS_ready _, rfl, by decide⟩,
    ⟨absorbS_ready _, rfl, by decide⟩, ⟨absorbS_ready _, rfl, by decide⟩⟩

theorem absorbS_filled (n : Nat) (h : n = 0 ∨ n = 55 ∨ n = 56 ∨ n = 62 ∨ n = 63) :
    BufFilled (absorbS n).buf (fillLevel (absorbS n).len).toNat := by
  rcases h with rfl | rfl | rfl | rfl | rfl <;> unfold BufFilled <;> decide +kernel

/-- A byte that does not fill the block and one that does. -/
theorem test_witness_PushTransaction :
    (Ready (absorbS 62) ∧ (absorbS 62).fsm = .absorb ∧ (absorbS 62).params.lenGuard = false ∧
        (absorbS 62).h.get? = some cand ∧ BufFilled (absorbS 62).buf (fillLevel (absorbS 62).len).toNat ∧
        fillLevel (absorbS 62).len ≠ 63#6) ∧
      (Ready (absorbS 63) ∧ (absorbS 63).fsm = .absorb ∧ (absorbS 63).params.lenGuard = false ∧
        (absorbS 63).h.get? = some cand ∧ BufFilled (absorbS 63).buf (fillLevel (absorbS 63).len).toNat ∧
        fillLevel (absorbS 63).len = 63#6) :=
  ⟨⟨absorbS_ready _, rfl, rfl, rfl, absorbS_filled _ (by decide), by decide⟩,
    ⟨absorbS_ready _, rfl, rfl, rfl, absorbS_filled _ (by decide), by decide⟩⟩

/-- One closing block at f = 0 and 55, two at f = 56 and 63. -/
theorem test_witness_FinalTransaction :
    ∀ n, n = 0 ∨ n = 55 ∨ n = 56 ∨ n = 63 →
      Ready (absorbS n) ∧ (absorbS n).fsm = .absorb ∧ (absorbS n).h.get? = some cand ∧
        BufFilled (absorbS n).buf (fillLevel (absorbS n).len).toNat ∧ (fillLevel (absorbS n).len).toNat = n := by
  intro n h
  refine ⟨absorbS_ready _, rfl, rfl, absorbS_filled _ (by omega), ?_⟩
  rcases h with rfl | rfl | rfl | rfl <;> decide

theorem test_witness_RaisingAnError : idleS.errs.err = false ∧ errS.errs.err = true := ⟨rfl, rfl⟩

/-- A command out of its state, one in it, the guard, an illegal and a reserved word, and BUSY. -/
theorem test_witness_LegalityTable :
    (idleS.live = true ∧ idleS.fsm ≠ .busy ∧ legalIn (.rdhex 0#6) idleS.fsm = false ∧
        legalIn .nop idleS.fsm = true ∧ decode 0x00000106#32 = .illegal ∧ decode 0x00010002#32 = .reserved) ∧
      (fullS.live = true ∧ fullS.fsm ≠ .busy ∧ legalIn (.push 0#8) fullS.fsm = true ∧ fullS.params.lenGuard = true ∧
        fullS.len = lastLen) ∧
      ((busyS .load 0#6 true).live = true ∧ (busyS .load 0#6 true).fsm = .busy) :=
  ⟨⟨rfl, by decide, by decide, by decide, by decide, by decide⟩, ⟨rfl, by decide, by decide, rfl, rfl⟩, ⟨rfl, rfl⟩⟩

/-- An error is recorded and kept; one is recorded and cleared by CLRERR; none is recorded and one is raised. -/
theorem test_witness_ErrorRecordIsSticky :
    (errS.errs.err = true ∧ ∃ t, step errS = .next t) ∧
      ((∃ t, step { errS with host := [.send 5#32] } = .next t) ∧ Accepts { errS with host := [.send 5#32] } .clrerr) ∧
      idleS.errs.err = false ∧ ∃ t, step { idleS with host := [.send 6#32] } = .next t :=
  ⟨⟨rfl, _, rfl⟩, ⟨⟨_, rfl⟩, ⟨⟨rfl, by decide⟩, 5#32, ⟨rfl, rfl, rfl, rfl⟩, by decide⟩⟩, rfl, _, rfl⟩

/-- An accepted INIT, a FOLD and a reset edge: three of the four ways H may change, and a step that leaves it. -/
theorem test_witness_HashWrites :
    (∃ t, step { idleS with host := [.send 1#32] } = .next t) ∧ (∃ t, step (busyS .fold 63#6 false) = .next t) ∧
      (∃ t, step { idleS with host := [.drive ⟨false, false, 0#32⟩] } = .next t) ∧ ∃ t, step idleS = .next t :=
  ⟨⟨_, rfl⟩, ⟨_, rfl⟩, ⟨_, rfl⟩, ⟨_, rfl⟩⟩

theorem test_witness_BufferAndLengthWrites :
    (∃ t, step { absorbS 0 with host := [.send 0x6102#32] } = .next t) ∧
      (∃ t, step { absorbS 0 with host := [.send 3#32] } = .next t) ∧ ∃ t, step (busyS .fold 63#6 true) = .next t :=
  ⟨⟨_, rfl⟩, ⟨_, rfl⟩, ⟨_, rfl⟩⟩

theorem test_witness_WorkingStateWrites :
    (∃ t, step (busyS .round 63#6 false) = .next t) ∧ Sequencing (busyS .round 63#6 false) .round :=
  ⟨⟨_, rfl⟩, rfl, rfl, rfl, by simp [ResetEdge, pinsAt, busyS, idleS, Pins.idle]⟩

theorem test_witness_ParametersConstant : ∃ t, step idleS = .next t := ⟨_, rfl⟩

theorem test_witness_StepKeepsInvariant :
    (Sound idleS ∧ ∃ t, step idleS = .next t) ∧
      Sound (busyS .fold 63#6 true) ∧ ∃ t, step (busyS .fold 63#6 true) = .next t :=
  ⟨⟨idleS_sound, _, rfl⟩, busyS_sound _ _ _, _, rfl⟩

/-- A sound state, and one at LOAD with nothing in BUF, whose step is the model fault. -/
theorem test_witness_SoundStepsNeverFault :
    Sound (busyS .round 16#6 false) ∧ ({ busyS .load 0#6 false with buf := [] }).seq.sub = .load ∧
      ¬ BufFilled ({ busyS .load 0#6 false with buf := [] }).buf 64 ∧
      step { busyS .load 0#6 false with buf := [] } = .fault .unwritten :=
  ⟨busyS_sound _ _ _, rfl, fun h => absurd (h 0 (by decide)) (by decide), rfl⟩

/-- A run from reset that answers a next state. -/
theorem test_witness_RunsFromResetNeverFault :
    ∃ t, Host.Core.run Sys2Proof.core 1 { State.resetOf params with host := [.send 1#32] } = .next t := ⟨_, rfl⟩

/-- R192, log entry 2: RDHEX in DONE answers whether or not H has been written. -/
theorem test_rdhex_unwritten_answers : (after (exec (.rdhex 0#6) { idleS with fsm := .done })).isSome = true := by decide

theorem test_witness_BusyEnds : Sound (busyS .load 0#6 true) ∧ (busyS .load 0#6 true).fsm = .busy :=
  ⟨busyS_sound _ _ _, rfl⟩

theorem busyS_bytes (u : Sub) (t : BitVec 6) (p : Bool) :
    (busyS u t p).buf.readBytes 64 0 = some (List.replicate 64 0x61#8) := by
  change (filled 64).readBytes 64 0 = _
  decide +kernel

theorem test_witness_LoadStep :
    (busyS .load 0#6 false).seq.sub = .load ∧ (busyS .load 0#6 false).h.val = cand ∧
      (busyS .load 0#6 false).buf.readBytes 64 0 = some (List.replicate 64 0x61#8) := ⟨rfl, rfl, busyS_bytes _ _ _⟩

/-- t = 15, the last round that computes no word; t = 16, the first that does; and t = 63, the last. -/
theorem test_witness_RoundStep :
    (∀ t, (busyS .round t false).seq.sub = .round ∧ (busyS .round t false).seq.tcnt = t) ∧
      (15#6).toNat < 16 ∧ 16 ≤ (16#6).toNat ∧ 16 ≤ (63#6).toNat ∧
      schedRead (wordsW 64) (63#6 - 16#6) = some 7#32 :=
  ⟨fun _ => ⟨rfl, rfl⟩, by decide, by decide, by decide, by decide +kernel⟩

theorem test_witness_FoldStep :
    ∀ p, (busyS .fold 63#6 p).seq.sub = .fold ∧ (busyS .fold 63#6 p).seq.pend2 = p := fun _ => ⟨rfl, rfl⟩

theorem test_witness_SequencerComputesCompress :
    ∀ p, (busyS .load 0#6 p).fsm = .busy ∧ (busyS .load 0#6 p).seq.sub = .load ∧
      (busyS .load 0#6 p).buf.readBytes 64 0 = some (List.replicate 64 0x61#8) ∧ (busyS .load 0#6 p).seq.pend2 = p :=
  fun _ => ⟨rfl, rfl, busyS_bytes _ _ _, rfl⟩

theorem test_witness_EdgesComposeToTransaction :
    Ready { idleS with host := [.send (encode .init), .send 3#32] } ∧
      ∃ t, transact .init { idleS with host := [.send 3#32] } = .next t := ⟨⟨rfl, by decide⟩, ⟨_, rfl⟩⟩

theorem test_witness_AbsorbedPrefix : Ready idleS ∧ idleS.params.lenGuard = false := ⟨idleS_ready, rfl⟩

theorem test_witness_MessageDigest :
    (Ready doneS ∧ doneS.params.lenGuard = false) ∧ Ready fullS ∧ ([0x61#8] : List Byte).length < 2 ^ 29 :=
  ⟨⟨doneS_ready, rfl⟩, fullS_ready, by decide⟩

theorem test_witness_InitForgetsEarlierMessage :
    Ready idleS ∧ Ready doneS ∧ idleS.params = doneS.params ∧ idleS.errs = doneS.errs ∧
      idleS.params.lenGuard = false ∧ (∃ t, transactAll (messageCommands []) idleS = .next t) ∧
      ∃ t, transactAll (messageCommands []) doneS = .next t := by
  have next_of : ∀ r : Result, (after r).isSome = true → ∃ t, r = .next t := by
    intro r h; cases r with
    | next t => exact ⟨t, rfl⟩
    | fault _ => cases h
    | refused _ => cases h
  exact ⟨idleS_ready, doneS_ready, rfl, rfl, rfl, next_of _ (by decide +kernel), next_of _ (by decide +kernel)⟩

theorem test_witness_PaddedLengthIsSmallest : 128 % 64 = 0 ∧ 55 + 9 ≤ 128 := by decide
theorem test_witness_PaddedMessageShape : ([] : List Byte).length < 1 ∧ 1 < (pad []).length - 8 := by decide
theorem test_witness_RotateAndShift : 0 < 31 ∧ 31 < 32 ∧ 1 < 32 ∧ 0 < 1 := by decide
theorem test_witness_ScheduleWords : (List.replicate 64 0x61#8).length = 64 ∧ 15 < 16 ∧ 16 ≤ 63 ∧ 63 < 64 := by decide
/-- The first and last code point of each range. -/
theorem test_witness_TextEncodingIsUtf8 :
    (Char.ofNat 0x7F).toNat = 0x7F ∧ (Char.ofNat 0x80).toNat = 0x80 ∧ (Char.ofNat 0x7FF).toNat = 0x7FF ∧
      (Char.ofNat 0x800).toNat = 0x800 ∧ (Char.ofNat 0xFFFF).toNat = 0xFFFF ∧ (Char.ofNat 0x10000).toNat = 0x10000 ∧
      (Char.ofNat 0x10FFFF).toNat = 0x10FFFF := by decide

/-- No error, and the last cause with EOVF. -/
theorem test_witness_UndefinedStatusFields :
    (idleS.errs.ecode = .none ↔ idleS.errs.err = false) ∧
      ((⟨true, .tooLarge, true⟩ : ErrRec).ecode = .none ↔ (⟨true, .tooLarge, true⟩ : ErrRec).err = false) := by decide

theorem test_witness_HexIsInjective : (0x30#8 : Byte) ∈ hexDigits (Vector.replicate 8 0#32) := by decide

end Sys2Proof.Tests
end

section
/-! Proofs of the scope family: the level of abstraction and the parameters (00_scope.md R7, R11). -/

namespace Sys2Proof.Machine

/-! ## The word of a command decodes to it -/

/-- Each command's word lies in its row of the opcode table (30_encoding.md R71, R73). -/
theorem tableRow_of_instr (i : Instr) : Laws.TableRow.Statement i := by
  cases i with
  | nop => exact Laws.TableRow.nop
  | init => exact Laws.TableRow.init
  | push b => exact Laws.TableRow.push b
  | final => exact Laws.TableRow.final
  | rdhex idx => exact Laws.TableRow.rdhex idx
  | clrerr => exact Laws.TableRow.clrerr

/-- The table's mask is the must-be-zero mask with the opcode bits added (30_encoding.md R73). -/
theorem mustBeZero_opcOf_encode (i : Instr) :
    mustBeZero (opcOf (encode i)) = tableMask i &&& 0xFFFFFFF0#32 := by
  cases i <;> simp only [encode, opcOf_cmdWord, tableMask] <;> decide

/-- The table's match word has nothing above the opcode (30_encoding.md R73). -/
theorem tableMatch_and_above_opcode (i : Instr) : tableMatch i &&& 0xFFFFFFF0#32 = 0#32 := by
  cases i <;> simp [tableMatch]

/-- No must-be-zero bit is set in the word of a command (30_encoding.md R73). -/
theorem encode_and_mustBeZero (i : Instr) : encode i &&& mustBeZero (opcOf (encode i)) = 0#32 := by
  obtain ⟨hrow, -⟩ := tableRow_of_instr i
  rw [mustBeZero_opcOf_encode, ← BitVec.and_assoc, hrow, tableMatch_and_above_opcode]

/-- The index field of the word of RDHEX (30_encoding.md R72). -/
@[simp] theorem idxOf_cmdWord_setWidth (idx : BitVec 6) (opc : BitVec 4) :
    idxOf (cmdWord (idx.setWidth 8) opc) = idx := by
  apply BitVec.eq_of_getLsbD_eq
  intro n hn
  simp [idxOf, hn, cmdWord_getLsbD, show ¬ 8 + n < 4 by omega, show 8 + n < 16 by omega, show n < 8 by omega]

/-- Decoding the word of a command gives the command back (30_encoding.md R75). -/
theorem decode_encode (i : Instr) : decode (encode i) = .cmd i := by
  obtain ⟨-, hdefined⟩ := tableRow_of_instr i
  rw [decode, if_neg (by omega), if_neg (not_not.mpr (encode_and_mustBeZero i))]
  cases i <;> simp [encode]

/-! ## What stays as it is over a command, a sequencer step and an edge -/

/-- `t` has the parameters, the reset mark and the coming host actions of `s`. -/
structure SameSetting (s t : State) : Prop where
  params : t.params = s.params
  live : t.live = s.live
  host : t.host = s.host

theorem exec_next_sameSetting {i : Instr} {s t : State} (h : exec i s = .next t) : SameSetting s t := by
  cases i with
  | nop => obtain ⟨-, -, rfl⟩ | ⟨-, rfl⟩ := execNop_next h <;> exact ⟨rfl, rfl, rfl⟩
  | init => obtain ⟨-, -, rfl⟩ | ⟨-, rfl⟩ := execInit_next h <;> exact ⟨rfl, rfl, rfl⟩
  | push b =>
    obtain ⟨-, -, rfl⟩ | ⟨-, -, rfl⟩ | ⟨-, -, -, -, rfl⟩ | ⟨-, -, -, rfl⟩ | ⟨-, -, -, rfl⟩ := execPush_next h <;>
      exact ⟨rfl, rfl, rfl⟩
  | final => obtain ⟨-, -, rfl⟩ | ⟨-, -, rfl⟩ | ⟨-, -, rfl⟩ := execFinal_next h <;> exact ⟨rfl, rfl, rfl⟩
  | rdhex idx => obtain ⟨-, -, rfl⟩ | ⟨-, -, rfl⟩ | ⟨-, -, rfl⟩ := execRdhex_next h <;> exact ⟨rfl, rfl, rfl⟩
  | clrerr => obtain ⟨-, -, rfl⟩ | ⟨-, rfl⟩ := execClrerr_next h <;> exact ⟨rfl, rfl, rfl⟩

theorem acceptWord_next_sameSetting {w : Word} {s t : State} (hr : Ready s) (h : acceptWord w s = .next t) :
    SameSetting s t := by
  obtain ⟨i, -, hexec⟩ | ⟨-, rfl⟩ | ⟨-, rfl⟩ := acceptWord_next hr h
  · exact exec_next_sameSetting hexec
  · exact ⟨rfl, rfl, rfl⟩
  · exact ⟨rfl, rfl, rfl⟩

theorem tick_next_sameSetting {s t : State} (h : tick s = .next t) : SameSetting s t := by
  obtain ⟨-, hload⟩ | ⟨-, rfl⟩ | ⟨-, -, rfl⟩ | ⟨-, -, rfl⟩ := tick_next h
  · obtain ⟨bytes, -, rfl⟩ := seqLoad_next hload
    exact ⟨rfl, rfl, rfl⟩
  · exact ⟨rfl, rfl, rfl⟩
  · exact ⟨rfl, rfl, rfl⟩
  · exact ⟨rfl, rfl, rfl⟩

theorem clockEdge_next_params_live {p : Pins} {s t : State} (h : clockEdge p s = .next t) :
    t.params = s.params ∧ (s.live = true → t.live = true) := by
  obtain ⟨-, rfl⟩ | ⟨-, -, -, htick⟩ | ⟨-, -, hready, hword⟩ | ⟨-, -, -, rfl⟩ := clockEdge_next h
  · exact ⟨resetEdge_params s, fun _ => resetEdge_live s⟩
  · have hsame := tick_next_sameSetting htick
    exact ⟨hsame.params, hsame.live.trans⟩
  · have hsame := acceptWord_next_sameSetting hready hword
    exact ⟨hsame.params, hsame.live.trans⟩
  · exact ⟨restEdge_params s, (restEdge_live s).trans⟩

/-- Settles O31: the host's action touches neither field, and no edge changes the parameters or takes the reset mark back. -/
theorem parametersConstant : Obligations.ParametersConstant := by
  intro s t hstep
  obtain ⟨-, hedge⟩ := step_next hstep
  simpa using clockEdge_next_params_live hedge

/-! ## One edge under a host that sends words -/

/-- A ready core accepts the word at the head of the host's list (30_encoding.md R81). -/
theorem step_send_of_ready {s : State} {w : Word} {rest : List HostAct} (hr : Ready s)
    (hh : s.host = .send w :: rest) : step s = acceptWord w { s with host := rest } := by
  obtain ⟨hlive, hfsm⟩ := hr
  have hact : afterAct s = { s with host := rest } := by
    rw [afterAct_send hh, if_pos ((cmdReady_iff s).mpr ⟨hlive, hfsm⟩)]
  simp [step, hostEdge, actRefusal, pinsAt, Pins.command, clockEdge, hh, hact, hfsm]

/-- On a ready core the accepted word of a command runs the command (30_encoding.md R75). -/
theorem acceptWord_encode {s : State} (hr : Ready s) (i : Instr) : acceptWord (encode i) s = exec i s := by
  rw [acceptWord, accepting_of_ready hr, decode_encode]

/-- While BUSY an edge is the sequencer's step, and a host that has only words to send holds them
(70_reset_and_hazards.md R260). -/
theorem step_of_busy {s : State} {ws : List Word} (hlive : s.live = true) (hb : s.fsm = .busy)
    (hh : s.host = ws.map .send) : step s = tick s := by
  have hnot : cmdReady s ≠ true := fun h => ((cmdReady_iff s).mp h).2 hb
  cases ws with
  | nil => simp [step, hostEdge, actRefusal, pinsAt, Pins.idle, clockEdge, afterAct, hh, hlive, hb]
  | cons w ws =>
    have hact : afterAct s = s := by rw [afterAct_send hh, if_neg hnot]
    simp [step, hostEdge, actRefusal, pinsAt, Pins.command, clockEdge, hh, hact, hlive, hb]

/-! ## Edges compose to a transaction -/

/-- Everything a completed drain of at least one step did: nothing, or a sequencer step and the rest of the drain. -/
theorem drain_succ_next {n : Nat} {s t : State} (h : drain (n + 1) s = .next t) :
    (s.fsm ≠ .busy ∧ t = s) ∨ (s.fsm = .busy ∧ ∃ u, tick s = .next u ∧ drain n u = .next t) := by
  by_cases hb : s.fsm = .busy
  · rw [drain, if_pos hb] at h
    split at h
    · rename_i u hu; exact .inr ⟨hb, u, hu, h⟩
    · cases h
    · cases h
  · rw [drain_not_busy hb] at h
    exact .inl ⟨hb, by simpa using h.symm⟩

/-- A completed transaction is an accepting edge and a completed drain. -/
theorem transact_next {i : Instr} {s t : State} (h : transact i s = .next t) :
    ∃ u, exec i s = .next u ∧ drain maxBusySteps u = .next t := by
  unfold transact at h
  split at h
  · rename_i u hu; exact ⟨u, hu, h⟩
  · cases h
  · cases h

/-- A drain is a run of the machine, one edge for each sequencer step, when the host has only words to send. -/
theorem run_of_drain {n : Nat} {s t : State} {ws : List Word} (hlive : s.live = true) (hh : s.host = ws.map .send)
    (h : drain n s = .next t) : ∃ k, k ≤ n ∧ Host.Core.run Sys2Proof.core k s = .next t := by
  induction n generalizing s with
  | zero => exact ⟨0, le_rfl, h⟩
  | succ n ih =>
    obtain ⟨-, rfl⟩ | ⟨hb, u, htick, hdrain⟩ := drain_succ_next h
    · exact ⟨0, Nat.zero_le _, rfl⟩
    · have hsame := tick_next_sameSetting htick
      obtain ⟨k, hk, hrun⟩ := ih (hsame.live.trans hlive) (hsame.host.trans hh) hdrain
      have hstep : step s = .next u := (step_of_busy hlive hb hh).trans htick
      exact ⟨k + 1, Nat.succ_le_succ hk, (run_succ_next k hstep).trans hrun⟩

/-- Settles O41: the accepting edge is `exec`, and the edges after it are the drain's sequencer steps. -/
theorem edgesComposeToTransaction : Obligations.EdgesComposeToTransaction := by
  intro s t i ws hready hhost htransact
  obtain ⟨u, hexec, hdrain⟩ := transact_next htransact
  have hready' : Ready { s with host := ws.map .send } := ⟨hready.1, hready.2⟩
  have hstep : step s = .next u :=
    calc step s = acceptWord (encode i) { s with host := ws.map .send } := step_send_of_ready hready hhost
      _ = exec i { s with host := ws.map .send } := acceptWord_encode hready' i
      _ = .next u := hexec
  have hsame := exec_next_sameSetting hexec
  obtain ⟨k, hk, hrun⟩ := run_of_drain (hsame.live.trans hready.1) hsame.host hdrain
  exact ⟨k + 1, by omega, (run_succ_next k hstep).trans hrun⟩

end Sys2Proof.Machine
end

section
/-! Proofs of the state family: what one edge can do, and what may write each store (10_state.md R21 to R25, R32). -/

namespace Sys2Proof.Machine

/-! ## What one edge can do -/

/-- The state after a LOAD that read `bytes` from BUF (43_compression.md R171). -/
abbrev loadState (bytes : List Byte) (s : State) : State :=
  { s with
    vars := Latch.put (varsOfHash s.h.read)
    w := schedWriteWords s.w 0#6 (wordsOf bytes)
    seq := { s.seq with sub := .round, tcnt := 0#6 }
    rspValid := false }

/-- Everything that one edge can do, one constructor for each rule. The host's action comes first (`afterAct`) and touches nothing
that a rule reads, so the conditions are on the state before it. -/
inductive Edge (s : State) : State → Prop where
  | reset : ResetEdge s → Edge s (resetEdge (afterAct s))
  | load (bytes : List Byte) : Sequencing s .load → s.buf.readBytes 64 0 = some bytes →
      Edge s (loadState bytes (afterAct s))
  | round : Sequencing s .round → Edge s (roundState (afterAct s))
  | nextBlock : Sequencing s .fold → s.seq.pend2 = true → Edge s (nextClosingBlock (foldState (afterAct s)))
  | finish : Sequencing s .fold → s.seq.pend2 = false → Edge s (finishCommand (foldState (afterAct s)))
  | error (c : Cause) : Ready s → c ≠ .none → Edge s (errorState c (afterAct s))
  | nop : Accepts s .nop → Edge s (respond 0x00#8 (afterAct s))
  | init : Accepts s .init → Edge s (respond 0x00#8 (initMessage (afterAct s)))
  | push (b : Byte) : Accepts s (.push b) → s.fsm = .absorb → fillLevel s.len ≠ 63#6 →
      Edge s (respond 0x00#8 (absorbByte b (afterAct s)))
  | pushLast (b : Byte) : Accepts s (.push b) → s.fsm = .absorb → fillLevel s.len = 63#6 →
      Edge s (startBlock false .absorb (absorbByte b (afterAct s)))
  | final : Accepts s .final → s.fsm = .absorb → Edge s (finalState (afterAct s))
  | rdhex (idx : BitVec 6) : Accepts s (.rdhex idx) → s.fsm = .done →
      Edge s (respond (hexAt s.h.read idx) (afterAct s))
  | clrerr : Accepts s .clrerr → Edge s (respond 0x00#8 { afterAct s with errs := ErrRec.clear })
  | rest : Edge s (restEdge (afterAct s))

/-- The host's action does not change whether the core is ready. -/
@[simp] theorem ready_afterAct (s : State) : Ready (afterAct s) ↔ Ready s := by simp [Ready]

/-- A sequencer step is one of its four rules. -/
theorem edge_of_tick {s t : State} (hlive : s.live = true) (hb : s.fsm = .busy) (hr : ¬ ResetEdge s)
    (h : tick (afterAct s) = .next t) : Edge s t := by
  have seq_of {u : Sub} (hu : (afterAct s).seq.sub = u) : Sequencing s u := ⟨hlive, hb, by simpa using hu, hr⟩
  obtain ⟨hu, hload⟩ | ⟨hu, rfl⟩ | ⟨hu, hp, rfl⟩ | ⟨hu, hp, rfl⟩ := tick_next h
  · obtain ⟨bytes, hbytes, rfl⟩ := seqLoad_next hload
    exact .load bytes (seq_of hu) (by simpa using hbytes)
  · exact .round (seq_of hu)
  · exact .nextBlock (seq_of hu) (by simpa using hp)
  · exact .finish (seq_of hu) (by simpa using hp)

/-- On a ready core a command does not answer by being held. -/
theorem not_held_of_ready {s : State} {P : Prop} (hr : Ready s) (h : s.live = true ∧ s.fsm = .busy ∧ P) : False :=
  hr.2 h.2.1

/-- An accepted command is an error or one of the rules of its meaning. -/
theorem edge_of_exec {i : Instr} {s t : State} (ha : Accepts s i) (h : exec i (afterAct s) = .next t) : Edge s t := by
  have hr : Ready s := ha.1
  have hr' : Ready (afterAct s) := (ready_afterAct s).mpr hr
  cases i with
  | nop =>
    obtain hheld | ⟨-, rfl⟩ := execNop_next h
    · exact (not_held_of_ready hr' hheld).elim
    · exact .nop ha
  | init =>
    obtain hheld | ⟨-, rfl⟩ := execInit_next h
    · exact (not_held_of_ready hr' hheld).elim
    · exact .init ha
  | push b =>
    obtain hheld | ⟨-, -, rfl⟩ | ⟨-, -, -, -, rfl⟩ | ⟨-, hf, hfill, rfl⟩ | ⟨-, hf, hfill, rfl⟩ := execPush_next h
    · exact (not_held_of_ready hr' hheld).elim
    · exact .error .seq hr (by decide)
    · exact .error .tooLarge hr (by decide)
    · exact .pushLast b ha (by simpa using hf) (by simpa using hfill)
    · exact .push b ha (by simpa using hf) (by simpa using hfill)
  | final =>
    obtain hheld | ⟨-, -, rfl⟩ | ⟨-, hf, rfl⟩ := execFinal_next h
    · exact (not_held_of_ready hr' hheld).elim
    · exact .error .seq hr (by decide)
    · exact .final ha (by simpa using hf)
  | rdhex idx =>
    obtain hheld | ⟨-, -, rfl⟩ | ⟨-, hf, rfl⟩ := execRdhex_next h
    · exact (not_held_of_ready hr' hheld).elim
    · exact .error .seq hr (by decide)
    · rw [afterAct_h]; exact .rdhex idx ha (by simpa using hf)
  | clrerr =>
    obtain hheld | ⟨-, rfl⟩ := execClrerr_next h
    · exact (not_held_of_ready hr' hheld).elim
    · exact .clrerr ha

/-- An accepted word is a decode error or a command. -/
theorem edge_of_acceptWord {w : Word} {s t : State} (hr : Ready s) (hp : Presents s w)
    (h : acceptWord w (afterAct s) = .next t) : Edge s t := by
  obtain ⟨i, hd, hexec⟩ | ⟨-, rfl⟩ | ⟨-, rfl⟩ := acceptWord_next ((ready_afterAct s).mpr hr) h
  · exact edge_of_exec ⟨hr, w, hp, hd⟩ hexec
  · exact .error .illegalOpc hr (by decide)
  · exact .error .rsvdBits hr (by decide)

/-- A step that answers a next state is one of the edges. -/
theorem edge_of_step {s t : State} (h : step s = .next t) : Edge s t := by
  obtain ⟨hact, hedge⟩ := step_next h
  obtain ⟨hr, rfl⟩ | ⟨hr, hlive, hb, htick⟩ | ⟨hr, hv, hready, hword⟩ | ⟨-, -, -, rfl⟩ := clockEdge_next hedge
  · exact .reset hr
  · exact edge_of_tick (by simpa using hlive) (by simpa using hb) (by simp [ResetEdge, hr]) htick
  · exact edge_of_acceptWord ((ready_afterAct s).mp hready) ⟨hact, hr, hv, rfl⟩ hword
  · exact .rest

/-! ## What may write H, a..h and W -/

/-- Settles O28: of the edges only reset, INIT and FOLD write H. -/
theorem hashWrites : Obligations.HashWrites := by
  intro s t hstep
  cases edge_of_step hstep with
  | reset hr => exact .inr (.inl ⟨hr, by simp⟩)
  | init ha => exact .inr (.inr (.inl ⟨ha, by simp⟩))
  | nextBlock hs => exact .inr (.inr (.inr ⟨hs, by simp [Latch.read]⟩))
  | finish hs => exact .inr (.inr (.inr ⟨hs, by simp [Latch.read]⟩))
  | load | round | error | nop | push | pushLast | final | rdhex | clrerr | rest => left; simp

/-- Settles O30: of the edges only reset, LOAD and ROUND write a..h, and only those and FOLD write W. -/
theorem workingStateWrites : Obligations.WorkingStateWrites := by
  intro s t hstep
  cases edge_of_step hstep with
  | reset hr => exact ⟨.inr (.inl ⟨hr, by simp⟩), .inr (.inl ⟨hr, by simp⟩)⟩
  | load bytes hs => exact ⟨.inr (.inr (.inl hs)), .inr (.inr (.inl hs))⟩
  | round hs => exact ⟨.inr (.inr (.inr hs)), .inr (.inr (.inr (.inl hs)))⟩
  | nextBlock hs => exact ⟨.inl (by simp), .inr (.inr (.inr (.inr hs)))⟩
  | finish hs => exact ⟨.inl (by simp), .inr (.inr (.inr (.inr hs)))⟩
  | error | nop | init | push | pushLast | final | rdhex | clrerr | rest => constructor <;> left <;> simp

/-! ## The fill level, and what may write BUF and LEN -/

theorem toNat_fillLevel (l : BitVec 29) : (fillLevel l).toNat = l.toNat % 64 := by
  simp [fillLevel]

theorem fillLevel_add_one (l : BitVec 29) : fillLevel (l + 1#29) = fillLevel l + 1#6 := by
  apply BitVec.eq_of_toNat_eq
  rw [toNat_fillLevel, BitVec.toNat_add, BitVec.toNat_add, toNat_fillLevel, BitVec.toNat_ofNat, BitVec.toNat_ofNat]
  omega

/-- Settles O20: the fill level is the low six bits of LEN, so both count together. -/
theorem fillLevelCounts : Obligations.FillLevelCounts := by
  refine ⟨fun l => ⟨toNat_fillLevel l, ?_, fillLevel_add_one l⟩, by decide⟩
  rw [BitVec.toNat_add, BitVec.toNat_ofNat]

theorem length_secondBlock (l : BitVec 29) : (secondBlock l).length = 64 := by
  simp [secondBlock, length_lengthFieldOf]

/-- What FINAL writes first: the closing block from the marker on, or the marker and zeros up to the end of the block
(40_padder.md R110 to R112). -/
def closeTail (l : BitVec 29) : List Byte :=
  if (fillLevel l).toNat ≤ 55 then closingTail (fillLevel l).toNat l else markerTail (fillLevel l).toNat

theorem closeBuffer_eq (s : State) : closeBuffer s = s.buf.writeBytes (fillLevel s.len).toNat (closeTail s.len) := rfl

/-- FINAL's first writes reach exactly to the end of BUF. -/
theorem fillLevel_add_length_closeTail (l : BitVec 29) : (fillLevel l).toNat + (closeTail l).length = 64 := by
  have hlt := (fillLevel l).isLt
  unfold closeTail
  split
  · simp [closingTail, length_lengthFieldOf]; omega
  · simp [markerTail]; omega

theorem read_closeBuffer_outside (s : State) {a : Nat} (ha : a < (fillLevel s.len).toNat ∨ 64 ≤ a) :
    (closeBuffer s).read a = s.buf.read a := by
  have hlen := fillLevel_add_length_closeTail s.len
  rw [closeBuffer_eq, Memory.read_writeBytes, if_neg (by omega)]

theorem read_writeBytes_secondBlock (m : Memory) (l : BitVec 29) (a : Nat) :
    (m.writeBytes 0 (secondBlock l)).read a = if a < 64 then (secondBlock l)[a]? else m.read a := by
  simp [Memory.read_writeBytes, length_secondBlock]

/-- Settles O29: of the edges only reset, INIT, PUSH, FINAL and the FOLD with PEND2 set write BUF or LEN. -/
theorem bufferAndLengthWrites : Obligations.BufferAndLengthWrites := by
  intro s t hstep
  cases edge_of_step hstep with
  | reset hr => exact .inr (.inl ⟨hr, by simp [Memory.read], by simp⟩)
  | init ha => exact .inr (.inr (.inl ⟨ha, by simp, by simp⟩))
  | push b ha => exact .inr (.inr (.inr (.inl ⟨b, ha, by simp, by simp⟩)))
  | pushLast b ha => exact .inr (.inr (.inr (.inl ⟨b, ha, by simp, by simp⟩)))
  | final ha =>
    refine .inr (.inr (.inr (.inr (.inl ⟨ha, by simp, fun a hout => ?_⟩))))
    simpa using read_closeBuffer_outside (afterAct s) (by simpa using hout)
  | nextBlock hs hp =>
    refine .inr (.inr (.inr (.inr (.inr ⟨hs, hp, by simp, fun a => ?_⟩))))
    simpa using read_writeBytes_secondBlock s.buf s.len a
  | load | round | finish | error | nop | rdhex | clrerr | rest => left; simp

/-! ## What a reset edge leaves -/

/-- Right after reset the status word shows LGUARD alone (10_state.md R32, 30_encoding.md R82). -/
theorem statusWord_resetOf (p : Params) :
    statusWord (State.resetOf p) = if p.lenGuard then 0x0200#16 else 0x0000#16 := by
  simp only [statusWord, resetOf_params, resetOf_fsm, resetOf_errs]
  cases p.lenGuard <;> rfl

/-- An edge with `rst_n = 0` is the reset edge, whatever else is on the ports (70_reset_and_hazards.md R250). -/
theorem step_drive_reset {s : State} {p : Pins} {rest : List HostAct} (hh : s.host = .drive p :: rest)
    (hp : p.rstN = false) : step s = .next (resetEdge { s with host := rest }) := by
  simp [step, hostEdge, actRefusal, pinsAt, afterAct, clockEdge, hh, hp]

/-- Settles O9: the step is the reset edge, and its fields are the reset values. -/
theorem resetEdgeValues : Obligations.ResetEdgeValues := by
  intro s p rest hh hp
  refine ⟨_, step_drive_reset hh hp, ?_⟩
  simp [ErrRec.clear, Cause.code, Memory.read, Ready, outputs, statusWord_resetOf]

end Sys2Proof.Machine
end

section
/-! Proofs of the state family: the invariant, and that no run reads an unwritten cell (10_state.md R33, R34). -/

namespace Sys2Proof.Machine

/-! ## Written bytes of BUF and written schedule words -/

/-- Reading the first bytes of BUF succeeds exactly when all of them are written. -/
theorem readBytes_isSome_iff_bufFilled (m : Memory) (n : Nat) : (m.readBytes n 0).isSome = true ↔ BufFilled m n := by
  constructor
  · intro h a ha
    obtain ⟨bs, hbs⟩ := Option.isSome_iff_exists.mp h
    obtain ⟨hlen, hread⟩ := (Memory.readBytes_eq_some _ _ _ _).mp hbs
    rw [← Nat.zero_add a, hread a ha, List.getElem?_eq_getElem (by omega), Option.isSome_some]
  · intro h
    exact Memory.readBytes_isSome _ _ _ fun i hi => by simpa using h i hi

theorem readBytes_eq_none_iff (m : Memory) (n : Nat) : m.readBytes n 0 = none ↔ ¬ BufFilled m n := by
  rw [← readBytes_isSome_iff_bufFilled, Bool.not_eq_true, Option.isSome_eq_false_iff, Option.isNone_iff_eq_none]

theorem bufFilled_zero (m : Memory) : BufFilled m 0 := fun _ ha => absurd ha (Nat.not_lt_zero _)

/-- Bytes written behind the written ones extend them. -/
theorem BufFilled.writeBytes {m : Memory} {n : Nat} (h : BufFilled m n) (bs : List Byte) :
    BufFilled (m.writeBytes n bs) (n + bs.length) := by
  obtain ⟨cs, hcs⟩ := Option.isSome_iff_exists.mp ((readBytes_isSome_iff_bufFilled m n).mpr h)
  rw [← readBytes_isSome_iff_bufFilled, Memory.readBytes_writeBytes hcs, Option.isSome_some]

theorem BufFilled.write {m : Memory} {n : Nat} (h : BufFilled m n) (b : Byte) : BufFilled (m.write n b) (n + 1) :=
  h.writeBytes [b]

/-- The fill level after one more byte. -/
theorem toNat_fillLevel_add_one (l : BitVec 29) :
    (fillLevel (l + 1#29)).toNat = if fillLevel l = 63#6 then 0 else (fillLevel l).toNat + 1 := by
  rw [fillLevel_add_one]
  split
  · rename_i h; rw [h]; rfl
  · rename_i h
    have hne : (fillLevel l).toNat ≠ 63 := fun e => h (BitVec.eq_of_toNat_eq e)
    have hlt := (fillLevel l).isLt
    rw [BitVec.toNat_add, BitVec.toNat_ofNat]
    omega

/-- LOAD writes `W[0..15]`. -/
theorem schedFilled_load {bytes : List Byte} (hlen : bytes.length = 64) (w : Vector (Latch Word) 64) :
    SchedFilled (schedWriteWords w 0#6 (wordsOf bytes)) 16 := by
  intro t ht
  have hwords : (wordsOf bytes).length = 16 := by rw [length_wordsOf, hlen]
  rw [schedRead_schedWriteWords _ _ _ _ (by simp [hwords]), if_pos (by simp [hwords, ht])]
  simp [hwords, ht]

/-- Round t leaves `W[0..t]` written, and `W[0..15]` at least. -/
theorem SchedFilled.advance {w : Vector (Latch Word) 64} {t : BitVec 6} (h : SchedFilled w (max 16 t.toNat)) :
    SchedFilled (schedAdvance w t) (max 16 (t.toNat + 1)) := by
  intro u hu
  by_cases ht : t.toNat < 16
  · rw [schedAdvance_of_lt ht]
    exact h u (by omega)
  · rw [schedAdvance_of_ge (by omega), schedRead_schedWrite]
    split
    · rfl
    · rename_i hne
      have : u.toNat ≠ t.toNat := fun e => hne (BitVec.eq_of_toNat_eq e)
      exact h u (by omega)

/-- Every schedule word that round t reads lies below t, or is one of the first sixteen. -/
theorem lt_of_mem_schedReads {t u : BitVec 6} (h : u ∈ schedReads t) : u.toNat < max 16 t.toNat := by
  unfold schedReads at h
  split at h
  · rw [List.mem_singleton] at h
    subst h
    omega
  · simp only [List.mem_cons, List.not_mem_nil, or_false] at h
    have hlt := t.isLt
    obtain rfl | rfl | rfl | rfl := h <;> rw [BitVec.toNat_sub, BitVec.toNat_ofNat] <;> omega

/-! ## The invariant under the named operations -/

/-- Nothing of the invariant is about the host's side. -/
theorem sound_afterAct {s : State} (h : Sound s) : Sound (afterAct s) := by
  obtain ⟨l, d, n, heq⟩ := afterAct_eq s
  rw [heq]
  exact { h with }

theorem sound_restEdge {s : State} (h : Sound s) : Sound (restEdge s) := { h with }

/-- A response of a core that is not BUSY is a legal response word (30_encoding.md R80). -/
theorem sound_respond {s : State} (h : Sound s) (hb : s.fsm ≠ .busy) (d : Byte) : Sound (respond d s) :=
  { h with
    rsp_zero := responseWord_zero _ _
    rsp_not_busy := by
      rw [respond_rsp, responseWord_fsm]
      cases hf : s.fsm with
      | busy => exact absurd hf hb
      | idle | absorb | done => decide }

theorem sound_resetOf (p : Params) : Sound (State.resetOf p) where
  buf_wf := rfl
  hash_written h := absurd rfl h
  absorb_buf h := nomatch h
  load_buf h := nomatch h
  vars_written h := nomatch h
  round_sched h := nomatch h
  ret_absorb h := nomatch h
  pend2_busy h := nomatch h
  err_clear _ := ⟨rfl, rfl⟩
  err_set h := nomatch h
  rsp_zero := by rw [resetOf_rsp]; decide
  rsp_not_busy := by rw [resetOf_rsp]; decide

theorem sound_resetEdge (s : State) : Sound (resetEdge s) := { sound_resetOf s.params with }

theorem sound_raiseError {s : State} (h : Sound s) {c : Cause} (hc : c ≠ .none) : Sound (raiseError c s) :=
  { h with
    err_clear := fun he => by rw [raiseError_errs, ErrRec.raise_err] at he; cases he
    err_set := fun _ => by
      rw [raiseError_errs]
      cases he : s.errs.err with
      | false => rw [ErrRec.raise_of_clear c he]; exact hc
      | true => rw [ErrRec.raise_of_set c he]; exact h.err_set he }

theorem sound_clearErrs {s : State} (h : Sound s) : Sound { s with errs := ErrRec.clear } :=
  { h with
    err_clear := fun _ => ⟨rfl, rfl⟩
    err_set := fun he => nomatch he }

theorem sound_initMessage {s : State} (h : Sound s) : Sound (initMessage s) :=
  { h with
    hash_written := fun _ => rfl
    absorb_buf := fun _ => bufFilled_zero _
    load_buf := fun hb => nomatch hb
    vars_written := fun hb => nomatch hb
    round_sched := fun hb => nomatch hb
    ret_absorb := fun hb => nomatch hb
    pend2_busy := fun hp => nomatch hp }

/-- PUSH's byte goes behind the written ones, and LEN counts it. -/
theorem sound_absorbByte {s : State} (h : Sound s) (hf : s.fsm = .absorb) (b : Byte) : Sound (absorbByte b s) :=
  have hnb : s.fsm ≠ .busy := by rw [hf]; decide
  { h with
    buf_wf := Memory.wf_write _ _ _ (fillLevel s.len).isLt h.buf_wf
    absorb_buf := fun _ => by
      rw [absorbByte_buf, absorbByte_len, toNat_fillLevel_add_one]
      split
      · exact bufFilled_zero _
      · exact (h.absorb_buf hf).write b
    load_buf := fun hb => absurd hb hnb
    ret_absorb := fun hb => absurd hb hnb }

/-- FINAL's first writes fill BUF. -/
theorem bufFilled_closeBuffer {s : State} (h : Sound s) (hf : s.fsm = .absorb) : BufFilled (closeBuffer s) 64 := by
  rw [closeBuffer_eq, ← fillLevel_add_length_closeTail s.len]
  exact (h.absorb_buf hf).writeBytes _

theorem sound_closeBuffer {s : State} (h : Sound s) (hf : s.fsm = .absorb) : Sound { s with buf := closeBuffer s } :=
  have hfilled := bufFilled_closeBuffer h hf
  have hlt := (fillLevel s.len).isLt
  { h with
    buf_wf := by
      change (closeBuffer s).wf = true
      rw [closeBuffer_eq]
      exact Memory.wf_writeBytes _ _ _ (fillLevel_add_length_closeTail s.len).le h.buf_wf
    absorb_buf := fun _ a ha => hfilled a (by change a < (fillLevel s.len).toNat at ha; omega)
    load_buf := fun _ _ => hfilled }

/-- A compression may start in ABSORB once BUF is full; one that returns to ABSORB needs an empty fill level. -/
theorem sound_startBlock {s : State} (h : Sound s) (hf : s.fsm = .absorb) (hfull : BufFilled s.buf 64) {p : Bool} {r : Ret}
    (hret : r = .absorb → p = false ∧ fillLevel s.len = 0#6) : Sound (startBlock p r s) :=
  { h with
    hash_written := fun _ => h.hash_written (by rw [hf]; decide)
    absorb_buf := fun ha => nomatch ha
    load_buf := fun _ _ => hfull
    vars_written := fun _ hu => absurd rfl hu
    round_sched := fun _ hu => nomatch hu
    ret_absorb := fun _ => hret
    pend2_busy := fun _ => rfl }

theorem sound_pushLast {s : State} (h : Sound s) (hf : s.fsm = .absorb) (hfill : fillLevel s.len = 63#6) (b : Byte) :
    Sound (startBlock false .absorb (absorbByte b s)) := by
  have hfull : BufFilled (absorbByte b s).buf 64 := by
    have := (h.absorb_buf hf).write b
    rw [absorbByte_buf]
    rwa [hfill] at this ⊢
  have hempty : fillLevel (absorbByte b s).len = 0#6 := by rw [absorbByte_len, fillLevel_add_one, hfill]; rfl
  exact sound_startBlock (sound_absorbByte h hf b) hf hfull fun _ => ⟨rfl, hempty⟩

theorem sound_finalState {s : State} (h : Sound s) (hf : s.fsm = .absorb) : Sound (finalState s) :=
  sound_startBlock (sound_closeBuffer h hf) hf (bufFilled_closeBuffer h hf) fun hr => nomatch hr

theorem sound_loadState {s : State} (h : Sound s) (hb : s.fsm = .busy) {bytes : List Byte}
    (hbytes : s.buf.readBytes 64 0 = some bytes) : Sound (loadState bytes s) :=
  { h with
    load_buf := fun _ hu => nomatch hu
    vars_written := fun _ _ => rfl
    round_sched := fun _ _ => schedFilled_load ((Memory.readBytes_eq_some _ _ _ _).mp hbytes).1 s.w
    ret_absorb := h.ret_absorb
    pend2_busy := fun _ => hb }

@[simp] theorem afterRound_pend2 (q : Seq) : (afterRound q).pend2 = q.pend2 := by unfold afterRound; split <;> rfl
@[simp] theorem afterRound_ret (q : Seq) : (afterRound q).ret = q.ret := by unfold afterRound; split <;> rfl

/-- Where ROUND goes: on to the next round, or after round 63 to FOLD (43_compression.md R172). -/
theorem afterRound_cases {q : Seq} (hq : q.sub = .round) :
    (q.tcnt.toNat < 63 ∧ (afterRound q).sub = .round ∧ (afterRound q).tcnt.toNat = q.tcnt.toNat + 1) ∨
      (q.tcnt.toNat = 63 ∧ (afterRound q).sub = .fold) := by
  have hlt := q.tcnt.isLt
  unfold afterRound
  split
  · rename_i h; exact .inr ⟨by rw [h]; rfl, rfl⟩
  · rename_i h
    have hne : q.tcnt.toNat ≠ 63 := fun e => h (BitVec.eq_of_toNat_eq e)
    refine .inl ⟨by omega, hq, ?_⟩
    rw [BitVec.toNat_add, BitVec.toNat_ofNat]
    omega

theorem sound_roundState {s : State} (h : Sound s) (hb : s.fsm = .busy) (hu : s.seq.sub = .round) :
    Sound (roundState s) :=
  { h with
    load_buf := fun _ hload => by
      rw [roundState_seq] at hload
      obtain ⟨-, hround, -⟩ | ⟨-, hfold⟩ := afterRound_cases hu
      · rw [hround] at hload; cases hload
      · rw [hfold] at hload; cases hload
    vars_written := fun _ _ => rfl
    round_sched := fun _ hround => by
      rw [roundState_seq] at hround ⊢
      obtain ⟨-, -, hnext⟩ | ⟨-, hfold⟩ := afterRound_cases hu
      · rw [hnext]; exact (h.round_sched hb hu).advance
      · rw [hfold] at hround; cases hround
    ret_absorb := fun _ => by simpa using h.ret_absorb hb
    pend2_busy := fun _ => hb }

theorem sound_foldState {s : State} (h : Sound s) (hu : s.seq.sub = .fold) : Sound (foldState s) :=
  { h with
    hash_written := fun _ => rfl
    round_sched := fun _ hround => by rw [foldState_seq, hu] at hround; cases hround }

/-- The second closing block fills BUF (40_padder.md R112). -/
theorem sound_nextClosingBlock {s : State} (h : Sound s) (hb : s.fsm = .busy) (hp : s.seq.pend2 = true) :
    Sound (nextClosingBlock s) :=
  have hlen := length_secondBlock s.len
  { h with
    buf_wf := by
      rw [nextClosingBlock_buf]
      exact Memory.wf_writeBytes _ _ _ (by omega) h.buf_wf
    absorb_buf := fun hf => by rw [nextClosingBlock_fsm, hb] at hf; cases hf
    load_buf := fun _ _ => by
      have := (bufFilled_zero s.buf).writeBytes (secondBlock s.len)
      rwa [nextClosingBlock_buf, ← hlen, ← Nat.zero_add (secondBlock s.len).length]
    vars_written := fun _ hu => absurd rfl hu
    round_sched := fun _ hu => nomatch hu
    ret_absorb := fun _ hr => by
      have := (h.ret_absorb hb hr).1
      rw [hp] at this; cases this
    pend2_busy := fun hp' => nomatch hp' }

@[simp] theorem Ret.fsm_ne_busy (r : Ret) : r.fsm ≠ .busy := by cases r <;> decide

/-- Leaving BUSY for RET: to ABSORB only with an empty fill level. -/
theorem sound_returned {s : State} (h : Sound s) (hb : s.fsm = .busy) (hp : s.seq.pend2 = false) :
    Sound { s with fsm := s.seq.ret.fsm } :=
  have hnb : s.seq.ret.fsm ≠ .busy := s.seq.ret.fsm_ne_busy
  { h with
    hash_written := fun _ => h.hash_written (by rw [hb]; decide)
    absorb_buf := fun hf => by
      have hret : s.seq.ret = .absorb := by
        cases hr : s.seq.ret with
        | absorb => rfl
        | done => change s.seq.ret.fsm = .absorb at hf; rw [hr] at hf; cases hf
      change BufFilled s.buf (fillLevel s.len).toNat
      rw [(h.ret_absorb hb hret).2]
      exact bufFilled_zero _
    load_buf := fun hb' => absurd hb' hnb
    vars_written := fun hb' => absurd hb' hnb
    round_sched := fun hb' => absurd hb' hnb
    ret_absorb := fun hb' => absurd hb' hnb
    pend2_busy := fun hp' => by change s.seq.pend2 = true at hp'; rw [hp] at hp'; cases hp' }

theorem sound_finishCommand {s : State} (h : Sound s) (hb : s.fsm = .busy) (hp : s.seq.pend2 = false) :
    Sound (finishCommand s) :=
  sound_respond (sound_returned h hb hp) s.seq.ret.fsm_ne_busy _

/-! ## Every edge keeps the invariant -/

/-- Settles O32: the power-on state differs from the reset state in fields the invariant does not read. -/
theorem resetStateIsSound : Obligations.ResetStateIsSound :=
  fun p _ => ⟨{ sound_resetOf p with }, { sound_resetOf p with }, sound_resetOf Config.params⟩

theorem sound_of_edge {s t : State} (hs : Sound s) (he : Edge s t) : Sound t := by
  have ha : Sound (afterAct s) := sound_afterAct hs
  cases he with
  | reset => exact sound_resetEdge _
  | load bytes hseq hbytes =>
    obtain ⟨-, hb, -, -⟩ := hseq
    exact sound_loadState ha (by simpa using hb) (by simpa using hbytes)
  | round hseq =>
    obtain ⟨-, hb, hu, -⟩ := hseq
    exact sound_roundState ha (by simpa using hb) (by simpa using hu)
  | nextBlock hseq hp =>
    obtain ⟨-, hb, hu, -⟩ := hseq
    exact sound_nextClosingBlock (sound_foldState ha (by simpa using hu)) (by simpa using hb) (by simpa using hp)
  | finish hseq hp =>
    obtain ⟨-, hb, hu, -⟩ := hseq
    exact sound_finishCommand (sound_foldState ha (by simpa using hu)) (by simpa using hb) (by simpa using hp)
  | error c hr hc => exact sound_respond (sound_raiseError ha hc) (by simpa using hr.2) _
  | nop hacc => exact sound_respond ha (by simpa using hacc.1.2) _
  | init => exact sound_respond (sound_initMessage ha) (by simp) _
  | push b _ hf => exact sound_respond (sound_absorbByte ha (by simpa using hf) b) (by simp [hf]) _
  | pushLast b _ hf hfill => exact sound_pushLast ha (by simpa using hf) (by simpa using hfill) b
  | final _ hf => exact sound_finalState ha (by simpa using hf)
  | rdhex idx hacc => exact sound_respond ha (by simpa using hacc.1.2) _
  | clrerr hacc => exact sound_respond (sound_clearErrs ha) (by simpa using hacc.1.2) _
  | rest => exact sound_restEdge ha

/-- Settles O33: a step is one of the edges, and each of them keeps the invariant. -/
theorem stepKeepsInvariant : Obligations.StepKeepsInvariant :=
  fun _ _ hs hstep => sound_of_edge hs (edge_of_step hstep)

/-! ## No unwritten cell is read -/

/-- A sound state is not one whose next edge reads an unwritten cell: for each store, by the field of the invariant about it. -/
theorem not_readsUnwritten_of_sound {s : State} (h : Sound s) (st : Store) : ¬ ReadsUnwritten s st := by
  intro hread
  cases st with
  | hash =>
    obtain ⟨hunwritten, hreader⟩ := hread
    have hidle : s.fsm ≠ .idle := by
      obtain ⟨-, hb, -, -⟩ | ⟨-, hb, -, -⟩ | ⟨-, -, hdone⟩ := hreader
      · rw [hb]; decide
      · rw [hb]; decide
      · rw [hdone]; decide
    rw [h.hash_written hidle] at hunwritten
    cases hunwritten
  | vars =>
    obtain ⟨hunwritten, ⟨-, hb, hu, -⟩ | ⟨-, hb, hu, -⟩⟩ := hread
    · rw [h.vars_written hb (by rw [hu]; decide)] at hunwritten; cases hunwritten
    · rw [h.vars_written hb (by rw [hu]; decide)] at hunwritten; cases hunwritten
  | schedule =>
    obtain ⟨⟨-, hb, hu, -⟩, u, hmem, hnone⟩ := hread
    have := h.round_sched hb hu u (lt_of_mem_schedReads hmem)
    rw [hnone] at this
    cases this
  | buf =>
    obtain ⟨⟨-, hb, hu, -⟩, hnot⟩ := hread
    exact hnot (h.load_buf hb hu)

/-- No accepted word faults. -/
theorem acceptWord_not_fault (w : Word) (s : State) (r : Fault) : acceptWord w s ≠ .fault r := by
  intro h
  obtain ⟨-, h⟩ := accepting_fault h
  split at h
  · exact exec_not_fault _ _ _ h
  · cases h
  · cases h

/-- The only edge that faults is a LOAD that reads an unwritten byte of BUF. -/
theorem readsUnwritten_of_step_fault {s : State} {r : Fault} (h : step s = .fault r) : ReadsUnwritten s .buf := by
  unfold step hostEdge clockEdge at h
  split at h
  · cases h
  · split at h
    · cases h
    · rename_i hr
      split at h
      · rename_i hbusy
        simp only [afterAct_live, afterAct_fsm, Bool.and_eq_true, beq_iff_eq] at hbusy
        obtain ⟨hu, hnone⟩ := tick_fault h
        rw [afterAct_buf, readBytes_eq_none_iff] at hnone
        exact ⟨⟨hbusy.1, hbusy.2, by simpa using hu, by simpa [ResetEdge] using hr⟩, hnone⟩
      · split at h
        · exact absurd h (acceptWord_not_fault _ _ _)
        · cases h

theorem safe_step_of_sound {s : State} (h : Sound s) : Safe (step s) :=
  fun _ hfault => not_readsUnwritten_of_sound h .buf (readsUnwritten_of_step_fault hfault)

/-- A LOAD with an unwritten byte in BUF is the model fault. -/
theorem tick_load_of_not_filled {s : State} (hu : s.seq.sub = .load) (hnot : ¬ BufFilled s.buf 64) :
    tick s = .fault .unwritten := by
  simp [tick, hu, seqLoad, (readBytes_eq_none_iff _ _).mpr hnot]

/-- Settles O34: the invariant rules out every unwritten read, and the one fault is such a read. -/
theorem soundStepsNeverFault : Obligations.SoundStepsNeverFault :=
  ⟨fun _ h => ⟨safe_step_of_sound h, not_readsUnwritten_of_sound h⟩, fun _ _ => readsUnwritten_of_step_fault,
    fun _ => tick_load_of_not_filled⟩

/-- The run from a sound state does not fault, and a state it ends in is sound. -/
theorem run_of_sound (n : Nat) {s : State} (h : Sound s) :
    Safe (Host.Core.run Sys2Proof.core n s) ∧ ∀ t, Host.Core.run Sys2Proof.core n s = .next t → Sound t := by
  induction n generalizing s with
  | zero => exact ⟨fun _ hf => (nomatch hf), fun t ht => by cases ht; exact h⟩
  | succ n ih =>
    cases hstep : step s with
    | next u =>
      rw [run_succ_next n hstep]
      exact ih (stepKeepsInvariant _ _ h hstep)
    | fault r => exact absurd hstep (safe_step_of_sound h r)
    | refused r =>
      rw [run_succ_refused n hstep]
      exact ⟨fun _ hf => (nomatch hf), fun _ ht => nomatch ht⟩

theorem run_reads_no_unwritten (n : Nat) {s : State} (h : Sound s) :
    Safe (Host.Core.run Sys2Proof.core n s) ∧
      ∀ t, Host.Core.run Sys2Proof.core n s = .next t → ∀ st, ¬ ReadsUnwritten t st :=
  (run_of_sound n h).imp_right fun hsound t ht => not_readsUnwritten_of_sound (hsound t ht)

/-- Settles O35: both runs start in a sound state. -/
theorem runsFromResetNeverFault : Obligations.RunsFromResetNeverFault := by
  intro p host n
  obtain ⟨hreset, hpowerOn, -⟩ := resetStateIsSound p host
  exact ⟨run_reads_no_unwritten n hreset, run_reads_no_unwritten n hpowerOn⟩

end Sys2Proof.Machine
end

section
/-! Proofs of the state family: the sequencer compresses BUF, and what H and BUF hold after INIT and the bytes of a message
(10_state.md R34, 43_compression.md R171 to R176). -/

namespace Sys2Proof.Machine

/-! ## The message schedule of a block -/

theorem length_scheduleOf {block : List Byte} (h : block.length = 64) : (scheduleOf block).length = 64 := by
  rw [scheduleOf, length_extendBy, length_wordsOf, h]

theorem getD_extendBy_of_lt (n : Nat) {ws : List Word} {i : Nat} (h : i < ws.length) :
    (extendBy n ws).getD i 0#32 = ws.getD i 0#32 := by
  rw [List.getD_eq_getElem?_getD, List.getD_eq_getElem?_getD, extendBy_prefix n ws i h]

/-- Every word that an extension adds is the recurrence of R145 on the words before it. -/
theorem getD_extendBy_of_ge {n : Nat} {ws : List Word} {i : Nat} (h16 : 16 ≤ ws.length) (hge : ws.length ≤ i)
    (hlt : i < ws.length + n) :
    (extendBy n ws).getD i 0#32 =
      expandWord ((extendBy n ws).getD (i - 16) 0#32) ((extendBy n ws).getD (i - 15) 0#32)
        ((extendBy n ws).getD (i - 7) 0#32) ((extendBy n ws).getD (i - 2) 0#32) := by
  induction n generalizing ws with
  | zero => omega
  | succ n ih =>
    have hlen : (extendSchedule ws).length = ws.length + 1 := by simp [extendSchedule]
    rcases Nat.eq_or_lt_of_le hge with rfl | hgt
    · have hback {d : Nat} (hd : 0 < d) :
          (extendBy (n + 1) ws).getD (ws.length - d) 0#32 = ws.getD (ws.length - d) 0#32 :=
        getD_extendBy_of_lt (n + 1) (by omega)
      rw [hback (d := 16) (by omega), hback (d := 15) (by omega), hback (d := 7) (by omega), hback (d := 2) (by omega),
        extendBy, getD_extendBy_of_lt n (by omega)]
      simp [extendSchedule]
    · exact ih (ws := extendSchedule ws) (by omega) (by omega) (by omega)

/-- Word t of the schedule of a block, from 16 on (42_schedule.md R145). -/
theorem getD_scheduleOf_of_ge {block : List Byte} (hlen : block.length = 64) {t : Nat} (hge : 16 ≤ t) (hlt : t < 64) :
    (scheduleOf block).getD t 0#32 =
      expandWord ((scheduleOf block).getD (t - 16) 0#32) ((scheduleOf block).getD (t - 15) 0#32)
        ((scheduleOf block).getD (t - 7) 0#32) ((scheduleOf block).getD (t - 2) 0#32) := by
  have hwords : (wordsOf block).length = 16 := by rw [length_wordsOf, hlen]
  exact getD_extendBy_of_ge (by omega) (by omega) (by omega)

/-- The first `n` words of W are those of the schedule of `block`. -/
def SchedHolds (w : Vector (Latch Word) 64) (block : List Byte) (n : Nat) : Prop :=
  ∀ u : BitVec 6, u.toNat < n → schedWord w u = (scheduleOf block).getD u.toNat 0#32

/-- LOAD writes the first sixteen words of the schedule (42_schedule.md R144). -/
theorem schedHolds_load {block : List Byte} (hlen : block.length = 64) (w : Vector (Latch Word) 64) :
    SchedHolds (schedWriteWords w 0#6 (wordsOf block)) block 16 := by
  intro u hu
  have hwords : (wordsOf block).length = 16 := by rw [length_wordsOf, hlen]
  apply schedWord_of_schedRead
  rw [schedRead_schedWriteWords _ _ _ _ (by simp [hwords]), if_pos (by simp [hwords, hu]), scheduleOf,
    getD_extendBy_of_lt _ (by omega)]
  simp [hwords, hu]

/-- The expander's part of round t makes `W[t]` the schedule's word t (42_schedule.md R145). -/
theorem SchedHolds.advance {w : Vector (Latch Word) 64} {block : List Byte} {t : BitVec 6} (hlen : block.length = 64)
    (h : SchedHolds w block (max 16 t.toNat)) : SchedHolds (schedAdvance w t) block (max 16 (t.toNat + 1)) := by
  intro u hu
  by_cases ht : t.toNat < 16
  · rw [schedAdvance_of_lt ht]
    exact h u (by omega)
  · rw [schedAdvance_of_ge (by omega), schedWord_schedWrite]
    have hlt := t.isLt
    split
    · rename_i heq
      subst heq
      have back {d : BitVec 6} (hd : d.toNat ≤ 16) (hpos : 0 < d.toNat) :
          schedWord w (u - d) = (scheduleOf block).getD (u.toNat - d.toNat) 0#32 := by
        have hsub : (u - d).toNat = u.toNat - d.toNat := BitVec.toNat_sub_of_le (BitVec.le_def.mpr (by omega))
        rw [h (u - d) (by omega), hsub]
      rw [getD_scheduleOf_of_ge hlen (by omega) hlt, back (by decide) (by decide), back (by decide) (by decide),
        back (by decide) (by decide), back (by decide) (by decide)]
      rfl
    · rename_i hne
      have : u.toNat ≠ t.toNat := fun e => hne (BitVec.eq_of_toNat_eq e)
      exact h u (by omega)

/-! ## The sequencer compresses one block -/

/-- Rounds from t on begin with round t. -/
theorem roundsFrom_drop {ws : List Word} {t : BitVec 6} (h : t.toNat < ws.length) (v : Vars) :
    roundsFrom t.toNat (ws.drop t.toNat) v =
      roundsFrom (t.toNat + 1) (ws.drop (t.toNat + 1)) (hashRound t (ws.getD t.toNat 0#32) v) := by
  rw [List.drop_eq_getElem_cons h, roundsFrom, BitVec.ofNat_toNat, BitVec.setWidth_eq, List.getD_eq_getElem _ _ h]

/-- The state in front of FOLD: the rounds from TCNT on are done (43_compression.md R172). -/
def roundsDone (block : List Byte) (w : Vector (Latch Word) 64) (s : State) : State :=
  { s with
    vars := Latch.put (roundsFrom s.seq.tcnt.toNat ((scheduleOf block).drop s.seq.tcnt.toNat) s.vars.val)
    w := w
    seq := { s.seq with sub := .fold, tcnt := 63#6 }
    rspValid := false }

/-- One round on a schedule word of the block. -/
theorem roundState_vars_of_schedHolds {block : List Byte} (hlen : block.length = 64) {s : State}
    (hw : SchedHolds s.w block (max 16 s.seq.tcnt.toNat)) :
    (roundState s).vars = Latch.put (hashRound s.seq.tcnt ((scheduleOf block).getD s.seq.tcnt.toNat 0#32) s.vars.val) := by
  rw [roundState_vars, hw.advance hlen s.seq.tcnt (by omega)]
  rfl

/-- The last round goes to FOLD. -/
theorem roundState_last {block : List Byte} (hlen : block.length = 64) {s : State} (ht : s.seq.tcnt = 63#6)
    (hw : SchedHolds s.w block (max 16 s.seq.tcnt.toNat)) : roundState s = roundsDone block (roundState s).w s := by
  have hrounds : roundsFrom s.seq.tcnt.toNat ((scheduleOf block).drop s.seq.tcnt.toNat) s.vars.val =
      hashRound s.seq.tcnt ((scheduleOf block).getD s.seq.tcnt.toNat 0#32) s.vars.val := by
    have hsched := length_scheduleOf hlen
    rw [roundsFrom_drop (by rw [hsched]; exact s.seq.tcnt.isLt), List.drop_of_length_le (by rw [hsched, ht]; decide),
      roundsFrom]
  have hvars := roundState_vars_of_schedHolds hlen hw
  have hseq : (roundState s).seq = { s.seq with sub := .fold, tcnt := 63#6 } := by
    rw [roundState_seq, afterRound, if_pos ht, ← ht]
  rw [← hrounds] at hvars
  calc roundState s
      = { s with vars := (roundState s).vars, w := (roundState s).w, seq := (roundState s).seq, rspValid := false } := rfl
    _ = roundsDone block (roundState s).w s := by rw [hvars, hseq]; rfl

/-- A round before the last leaves the same rounds to do as the state before it. -/
theorem roundsDone_roundState {block : List Byte} (hlen : block.length = 64) {s : State} (ht : s.seq.tcnt.toNat < 63)
    (hw : SchedHolds s.w block (max 16 s.seq.tcnt.toNat)) (w : Vector (Latch Word) 64) :
    roundsDone block w (roundState s) = roundsDone block w s := by
  have hne : s.seq.tcnt ≠ 63#6 := fun e => by rw [e] at ht; exact absurd ht (by decide)
  have hnext : (s.seq.tcnt + 1#6).toNat = s.seq.tcnt.toNat + 1 := by
    rw [BitVec.toNat_add, BitVec.toNat_ofNat]; omega
  have hsched : s.seq.tcnt.toNat < (scheduleOf block).length := by
    rw [length_scheduleOf hlen]; exact s.seq.tcnt.isLt
  have hseq : (roundState s).seq = { s.seq with tcnt := s.seq.tcnt + 1#6 } := by
    rw [roundState_seq, afterRound, if_neg hne]
  simp only [roundsDone, roundsFrom_drop hsched, roundState_vars_of_schedHolds hlen hw, hseq, hnext, Latch.put_val]
  rfl

/-- Draining a state in ROUND with `k` rounds after the coming one takes all of them. -/
theorem drain_rounds {block : List Byte} (hlen : block.length = 64) (k n : Nat) {s : State} (hb : s.fsm = .busy)
    (hu : s.seq.sub = .round) (ht : s.seq.tcnt.toNat + k = 63)
    (hw : SchedHolds s.w block (max 16 s.seq.tcnt.toNat)) :
    ∃ w, drain (n + k + 1) s = drain n (roundsDone block w s) := by
  have htick : tick s = .next (roundState s) := by simp [tick, hu]
  induction k generalizing s with
  | zero =>
    refine ⟨(roundState s).w, ?_⟩
    rw [drain_busy hb htick, ← roundState_last hlen (BitVec.eq_of_toNat_eq (by simpa using ht)) hw]
  | succ k ih =>
    obtain ⟨hlt, hround, hnext⟩ | ⟨hlast, -⟩ := afterRound_cases hu
    · rw [← roundState_seq] at hround hnext
      obtain ⟨w, hw'⟩ := ih (s := roundState s) hb hround (by omega) (by rw [hnext]; exact hw.advance hlen)
        (by simp only [tick, hround])
      refine ⟨w, ?_⟩
      rw [drain_busy hb htick, ← roundsDone_roundState hlen hlt hw w]
      exact hw'
    · omega

/-- The state after a whole block in front of what R174 does at its end: H is compressed with `block` and W is discarded. -/
def compressed (block : List Byte) (s : State) : State :=
  { s with
    h := Latch.put (compress s.h.val block)
    vars := Latch.put (roundsFrom 0 (scheduleOf block) (varsOfHash s.h.val))
    w := unwrittenSchedule
    seq := { s.seq with sub := .fold, tcnt := 63#6 }
    rspValid := false }

@[simp] theorem compressed_params (bs : List Byte) (s : State) : (compressed bs s).params = s.params := rfl
@[simp] theorem compressed_live (bs : List Byte) (s : State) : (compressed bs s).live = s.live := rfl
@[simp] theorem compressed_fsm (bs : List Byte) (s : State) : (compressed bs s).fsm = s.fsm := rfl
@[simp] theorem compressed_seq (bs : List Byte) (s : State) :
    (compressed bs s).seq = { s.seq with sub := .fold, tcnt := 63#6 } := rfl
@[simp] theorem compressed_len (bs : List Byte) (s : State) : (compressed bs s).len = s.len := rfl
@[simp] theorem compressed_h (bs : List Byte) (s : State) :
    (compressed bs s).h = Latch.put (compress s.h.val bs) := rfl
@[simp] theorem compressed_buf (bs : List Byte) (s : State) : (compressed bs s).buf = s.buf := rfl
@[simp] theorem compressed_errs (bs : List Byte) (s : State) : (compressed bs s).errs = s.errs := rfl
@[simp] theorem compressed_host (bs : List Byte) (s : State) : (compressed bs s).host = s.host := rfl

theorem foldState_roundsDone_loadState (block : List Byte) (w : Vector (Latch Word) 64) (s : State) :
    foldState (roundsDone block w (loadState block s)) = compressed block s := by
  simp only [foldState, roundsDone, compressed, compress, Latch.read, Latch.put_val, BitVec.toNat_ofNat, Nat.zero_mod,
    List.drop_zero]

/-- A state at LOAD whose BUF holds `block`: the coming 66 sequencer steps compress it (43_compression.md R176). -/
structure AtBlock (block : List Byte) (s : State) : Prop where
  busy : s.fsm = .busy
  load : s.seq.sub = .load
  bytes : s.buf.readBytes 64 0 = some block

/-- LOAD, 64 ROUND and FOLD compress the block; then comes what R174 does at its end. -/
theorem drain_block {block : List Byte} {s : State} (h : AtBlock block s) (n : Nat) :
    drain (n + 66) s =
      drain n (if s.seq.pend2 then nextClosingBlock (compressed block s) else finishCommand (compressed block s)) := by
  obtain ⟨hb, hu, hbytes⟩ := h
  have hlen : block.length = 64 := ((Memory.readBytes_eq_some _ _ _ _).mp hbytes).1
  have hload : tick s = .next (loadState block s) := by simp [tick, hu, seqLoad, hbytes]
  obtain ⟨w, hrounds⟩ := drain_rounds hlen 63 (n + 1) (s := loadState block s) hb rfl rfl (schedHolds_load hlen s.w)
  have hfold : tick (roundsDone block w (loadState block s)) = .next (endBlock (roundsDone block w (loadState block s))) :=
    rfl
  calc drain (n + 66) s
      = drain (n + 1 + 63 + 1) (loadState block s) := drain_busy hb hload
    _ = drain (n + 1) (roundsDone block w (loadState block s)) := hrounds
    _ = drain n (endBlock (roundsDone block w (loadState block s))) := drain_busy hb hfold
    _ = _ := by rw [endBlock, foldState_roundsDone_loadState]; rfl

/-- The last block of a command ends it. -/
theorem drain_lastBlock {block : List Byte} {s : State} (h : AtBlock block s) (hp : s.seq.pend2 = false) (n : Nat) :
    drain (n + 66) s = .next (finishCommand (compressed block s)) := by
  rw [drain_block h, hp, if_neg Bool.false_ne_true, drain_not_busy (Ret.fsm_ne_busy _)]

/-- The first of two closing blocks is followed by the second (40_padder.md R112). -/
theorem drain_firstBlock {block : List Byte} {s : State} (h : AtBlock block s) (hp : s.seq.pend2 = true) (n : Nat) :
    drain (n + 66) s = drain n (nextClosingBlock (compressed block s)) := by
  rw [drain_block h, hp, if_pos rfl]

/-! ## INIT, PUSH and FINAL as transactions -/

theorem transact_of_exec {i : Instr} {s t : State} (h : exec i s = .next t) :
    transact i s = drain maxBusySteps t := by
  rw [transact, h]

/-- A command that leaves the sequencer at rest is done with its accepting edge. -/
theorem transact_of_exec_ready {i : Instr} {s t : State} (h : exec i s = .next t) (hb : t.fsm ≠ .busy) :
    transact i s = .next t := by
  rw [transact_of_exec h, drain_not_busy hb]

theorem exec_init_of_ready {s : State} (hr : Ready s) : exec .init s = .next (respond 0x00#8 (initMessage s)) :=
  accepting_of_ready hr

/-- A PUSH in ABSORB that the guard admits stores its byte, and starts the sequencer when that fills the block. -/
theorem exec_push_of_absorb {s : State} (hr : Ready s) (hf : s.fsm = .absorb)
    (hg : s.params.lenGuard = false ∨ s.len ≠ lastLen) (b : Byte) :
    exec (.push b) s = .next (if fillLevel s.len = 63#6 then startBlock false .absorb (absorbByte b s)
      else respond 0x00#8 (absorbByte b s)) := by
  have hguard : ¬ (s.params.lenGuard && s.len == lastLen) = true := by
    rw [Bool.and_eq_true, beq_iff_eq]
    rintro ⟨hon, hlast⟩
    rcases hg with hoff | hne
    · rw [hon] at hoff; cases hoff
    · exact hne hlast
  change execPush b s = _
  rw [execPush, accepting_of_ready hr, if_neg (not_not.mpr hf), if_neg hguard]
  split <;> rfl

theorem exec_final_of_absorb {s : State} (hr : Ready s) (hf : s.fsm = .absorb) :
    exec .final s = .next (finalState s) := by
  change execFinal s = _
  rw [execFinal, accepting_of_ready hr, if_neg (not_not.mpr hf)]

/-- A PUSH that does not fill the block. -/
theorem transact_push {s : State} (hr : Ready s) (hf : s.fsm = .absorb)
    (hg : s.params.lenGuard = false ∨ s.len ≠ lastLen) (hfill : fillLevel s.len ≠ 63#6) (b : Byte) :
    transact (.push b) s = .next (respond 0x00#8 (absorbByte b s)) := by
  have hexec := exec_push_of_absorb hr hf hg b
  rw [if_neg hfill] at hexec
  exact transact_of_exec_ready hexec hr.2

/-- The PUSH that fills the block compresses it. -/
theorem transact_push_last {s : State} (hr : Ready s) (hf : s.fsm = .absorb)
    (hg : s.params.lenGuard = false ∨ s.len ≠ lastLen) (hfill : fillLevel s.len = 63#6) {bs : List Byte}
    (hbs : s.buf.readBytes 63 0 = some bs) (b : Byte) :
    transact (.push b) s =
      .next (finishCommand (compressed (bs ++ [b]) (startBlock false .absorb (absorbByte b s)))) := by
  have hexec := exec_push_of_absorb hr hf hg b
  rw [if_pos hfill] at hexec
  have hblock : AtBlock (bs ++ [b]) (startBlock false .absorb (absorbByte b s)) :=
    ⟨rfl, rfl, by rw [startBlock_buf, absorbByte_buf, hfill]; exact Memory.readBytes_write hbs⟩
  exact (transact_of_exec hexec).trans (drain_lastBlock hblock rfl 66)

/-- H after FINAL, from H, the bytes of the open block and LEN before it (40_padder.md R111, R112). -/
def closedHash (h : Vector Word 8) (head : List Byte) (len : BitVec 29) : Vector Word 8 :=
  if (fillLevel len).toNat ≤ 55 then compress h (head ++ closeTail len)
  else compress (compress h (head ++ closeTail len)) (secondBlock len)

/-- The block that FINAL leaves in BUF (40_padder.md R111, R112). -/
def lastBlock (head : List Byte) (len : BitVec 29) : List Byte :=
  if (fillLevel len).toNat ≤ 55 then head ++ closeTail len else secondBlock len

/-- `t` is `s` after a FINAL that closed a message whose open block held `head`. -/
structure Closed (s : State) (head : List Byte) (t : State) : Prop where
  fsm : t.fsm = .done
  h : t.h = Latch.put (closedHash s.h.val head s.len)
  buf : t.buf.readBytes 64 0 = some (lastBlock head s.len)
  pend2 : t.seq.pend2 = false
  len : t.len = s.len
  errs : t.errs = s.errs
  params : t.params = s.params
  live : t.live = s.live
  host : t.host = s.host
  rsp : t.rsp = responseWord (statusWord t) 0x00#8
  rspValid : t.rspValid = true

/-- The response at the end of a command shows the status it leaves (30_encoding.md R80). -/
theorem finishCommand_rsp_statusWord (s : State) :
    (finishCommand s).rsp = responseWord (statusWord (finishCommand s)) 0x00#8 := rfl

/-- FINAL's first writes complete the block that the message bytes `head` began. -/
theorem atBlock_finalState {s : State} {head : List Byte}
    (hhead : s.buf.readBytes (fillLevel s.len).toNat 0 = some head) :
    AtBlock (head ++ closeTail s.len) (finalState s) := by
  refine ⟨rfl, rfl, ?_⟩
  rw [startBlock_buf, closeBuffer_eq, ← fillLevel_add_length_closeTail s.len]
  exact Memory.readBytes_writeBytes hhead

/-- The FOLD that builds the second closing block goes back to LOAD with it in BUF (40_padder.md R112). -/
theorem atBlock_nextClosingBlock {s : State} (hb : s.fsm = .busy) : AtBlock (secondBlock s.len) (nextClosingBlock s) := by
  refine ⟨hb, rfl, ?_⟩
  have hread := Memory.readBytes_writeBytes (m := s.buf) (n := 0) (bs := []) (cs := secondBlock s.len) rfl
  rw [length_secondBlock] at hread
  rw [nextClosingBlock_buf]
  exact hread

/-- FINAL in ABSORB compresses one closing block or two and leaves the message closed (40_padder.md R110). -/
theorem transact_final {s : State} (hr : Ready s) (hf : s.fsm = .absorb) {head : List Byte}
    (hhead : s.buf.readBytes (fillLevel s.len).toNat 0 = some head) :
    ∃ t, transact .final s = .next t ∧ Closed s head t := by
  have hexec := transact_of_exec (exec_final_of_absorb hr hf)
  have hblock := atBlock_finalState hhead
  by_cases h55 : (fillLevel s.len).toNat ≤ 55
  · have hp : (finalState s).seq.pend2 = false := decide_eq_false (by omega)
    refine ⟨_, hexec.trans (drain_lastBlock hblock hp 66), ?_⟩
    exact {
      fsm := rfl
      h := by rw [closedHash, if_pos h55, finishCommand_h, compressed_h, startBlock_h]
      buf := by rw [lastBlock, if_pos h55, finishCommand_buf, compressed_buf]; exact hblock.bytes
      pend2 := hp, len := rfl, errs := rfl, params := rfl, live := rfl, host := rfl
      rsp := finishCommand_rsp_statusWord _
      rspValid := rfl }
  · have hp : (finalState s).seq.pend2 = true := decide_eq_true (by omega)
    have hblock₂ : AtBlock (secondBlock s.len) (nextClosingBlock (compressed (head ++ closeTail s.len) (finalState s))) :=
      atBlock_nextClosingBlock (s := compressed (head ++ closeTail s.len) (finalState s)) hblock.busy
    refine ⟨_, hexec.trans ((drain_firstBlock hblock hp 66).trans (drain_lastBlock hblock₂ rfl 0)), ?_⟩
    exact {
      fsm := by simp [Ret.fsm]
      h := by
        rw [closedHash, if_neg h55, finishCommand_h, compressed_h, nextClosingBlock_h, compressed_h, startBlock_h,
          Latch.put_val]
      buf := by rw [lastBlock, if_neg h55, finishCommand_buf, compressed_buf]; exact hblock₂.bytes
      pend2 := by simp, len := by simp, errs := by simp, params := by simp, live := by simp, host := by simp
      rsp := finishCommand_rsp_statusWord _
      rspValid := finishCommand_rspValid _ }

/-! ## The bytes of a message -/

/-- 10_state.md R34 (I1, I2): `t` is `s` after INIT and the bytes of `M`. -/
structure Absorbed (s : State) (M : List Byte) (t : State) : Prop where
  live : t.live = true
  fsm : t.fsm = .absorb
  len : t.len = BitVec.ofNat 29 M.length
  h : t.h = Latch.put (compressBlocks (M.length / 64) s.params.hInit M)
  buf : t.buf.readBytes (M.length % 64) 0 = some (M.drop (64 * (M.length / 64)))
  errs : t.errs = s.errs
  params : t.params = s.params

theorem Absorbed.ready {s t : State} {M : List Byte} (h : Absorbed s M t) : Ready t :=
  ⟨h.live, by rw [h.fsm]; decide⟩

/-- The fill level counts the bytes after the whole blocks, wrapped LEN or not. -/
theorem Absorbed.toNat_fillLevel {s t : State} {M : List Byte} (h : Absorbed s M t) :
    (fillLevel t.len).toNat = M.length % 64 := by
  rw [Machine.toNat_fillLevel, h.len, BitVec.toNat_ofNat]
  omega

theorem absorbed_init {s : State} (hr : Ready s) : Absorbed s [] (respond 0x00#8 (initMessage s)) where
  live := hr.1
  fsm := rfl
  len := rfl
  h := rfl
  buf := rfl
  errs := rfl
  params := rfl

/-- The guard admits the byte after `M` while the message stays below 2^29 bytes (40_padder.md R104). -/
theorem Absorbed.guard {s t : State} {M : List Byte} (h : Absorbed s M t)
    (hg : s.params.lenGuard = false ∨ M.length + 1 < 2 ^ 29) : t.params.lenGuard = false ∨ t.len ≠ lastLen := by
  rw [h.params, h.len]
  refine hg.imp_right fun hlt heq => ?_
  have hnat : M.length % 2 ^ 29 = 536870911 := congrArg BitVec.toNat heq
  omega

/-- One more byte that does not complete a block. -/
theorem Absorbed.push {s t : State} {M : List Byte} (h : Absorbed s M t) (b : Byte) (hfill : M.length % 64 ≠ 63) :
    Absorbed s (M ++ [b]) (respond 0x00#8 (absorbByte b t)) := by
  have hdiv : (M.length + 1) / 64 = M.length / 64 := by omega
  have hmod : (M.length + 1) % 64 = M.length % 64 + 1 := by omega
  have hlen : (M ++ [b]).length = M.length + 1 := List.length_append
  exact {
    live := h.live
    fsm := h.fsm
    len := by rw [hlen, BitVec.ofNat_add, ← h.len]; rfl
    h := by rw [hlen, hdiv, compressBlocks_append _ _ _ _ (by omega)]; exact h.h
    buf := by
      rw [hlen, hdiv, hmod, List.drop_append_of_le_length (by omega), respond_buf, absorbByte_buf, h.toNat_fillLevel]
      exact Memory.readBytes_write h.buf
    errs := h.errs
    params := h.params }

/-- The byte that completes a block: the block is compressed into H and BUF starts over. -/
theorem Absorbed.pushLast {s t : State} {M : List Byte} (h : Absorbed s M t) (b : Byte) (hfill : M.length % 64 = 63) :
    Absorbed s (M ++ [b]) (finishCommand
      (compressed (M.drop (64 * (M.length / 64)) ++ [b]) (startBlock false .absorb (absorbByte b t)))) := by
  have hdiv : (M.length + 1) / 64 = M.length / 64 + 1 := by omega
  have hlen : (M ++ [b]).length = M.length + 1 := List.length_append
  have hmod : (M.length + 1) % 64 = 0 := by omega
  have hdrop : (M ++ [b]).drop (64 * ((M.length + 1) / 64)) = [] := List.drop_of_length_le (by rw [hlen]; omega)
  have hblock : ((M ++ [b]).drop (64 * (M.length / 64))).take 64 = M.drop (64 * (M.length / 64)) ++ [b] := by
    rw [List.drop_append_of_le_length (by omega), List.take_of_length_le (by simp; omega)]
  exact {
    live := h.live
    fsm := rfl
    len := by rw [hlen, BitVec.ofNat_add, ← h.len]; rfl
    h := by
      rw [hlen, hdiv, compressBlocks_succ, compressBlocks_append _ _ _ _ (by omega), hblock, finishCommand_h,
        compressed_h, startBlock_h, absorbByte_h, h.h]
      rfl
    buf := by
      rw [hlen, hmod, hdrop]
      rfl
    errs := h.errs
    params := h.params }

theorem Absorbed.transact_push {s t : State} {M : List Byte} (h : Absorbed s M t) (b : Byte)
    (hg : s.params.lenGuard = false ∨ M.length + 1 < 2 ^ 29) :
    ∃ u, transact (.push b) t = .next u ∧ Absorbed s (M ++ [b]) u := by
  have hguard := h.guard hg
  by_cases hfill : M.length % 64 = 63
  · have h63 : fillLevel t.len = 63#6 := BitVec.eq_of_toNat_eq (h.toNat_fillLevel.trans hfill)
    have hbs := h.buf
    rw [hfill] at hbs
    exact ⟨_, transact_push_last h.ready h.fsm hguard h63 hbs b, h.pushLast b hfill⟩
  · have h63 : fillLevel t.len ≠ 63#6 := fun e => hfill (by rw [← h.toNat_fillLevel, e]; rfl)
    exact ⟨_, Machine.transact_push h.ready h.fsm hguard h63 b, h.push b hfill⟩

/-- A run of transactions, with one more after it. -/
theorem transactAll_concat {is : List Instr} {i : Instr} {s t u : State} (h : transactAll is s = .next t)
    (hi : transact i t = .next u) : transactAll (is ++ [i]) s = .next u := by
  rw [transactAll_append [i] h]
  simp only [transactAll, hi]

/-- INIT and the bytes of a message, by induction on the message from its end. -/
theorem exists_absorbed {s : State} (hr : Ready s) {M : List Byte}
    (hg : s.params.lenGuard = false ∨ M.length < 2 ^ 29) :
    ∃ t, transactAll (.init :: M.map .push) s = .next t ∧ Absorbed s M t := by
  induction M using List.reverseRecOn with
  | nil =>
    have hinit : transact .init s = .next (respond 0x00#8 (initMessage s)) :=
      transact_of_exec_ready (exec_init_of_ready hr) (by rw [respond_fsm, initMessage_fsm]; decide)
    exact ⟨_, transactAll_concat (is := []) rfl hinit, absorbed_init hr⟩
  | append_singleton M b ih =>
    rw [List.length_append, List.length_singleton] at hg
    obtain ⟨t, hrun, habs⟩ := ih (hg.imp_right Nat.lt_of_succ_lt)
    obtain ⟨u, hpush, habs'⟩ := habs.transact_push b hg
    refine ⟨u, ?_, habs'⟩
    rw [List.map_append, ← List.cons_append]
    exact transactAll_concat hrun hpush

/-- Settles O42: each PUSH keeps `Absorbed`, so the whole message does. -/
theorem absorbedPrefix : Obligations.AbsorbedPrefix := by
  intro s M hr hg
  obtain ⟨t, hrun, habs⟩ := exists_absorbed hr hg
  exact ⟨t, hrun, habs.fsm, habs.len, habs.h, habs.buf, habs.errs, habs.params⟩

/-! ## Hashing a message -/

/-- INIT, the bytes of a message and FINAL: FINAL closes the absorbed message. -/
theorem exists_closed {s : State} (hr : Ready s) {M : List Byte}
    (hg : s.params.lenGuard = false ∨ M.length < 2 ^ 29) :
    ∃ t u, Absorbed s M t ∧ transactAll (messageCommands M) s = .next u ∧
      Closed t (M.drop (64 * (M.length / 64))) u := by
  obtain ⟨t, hrun, habs⟩ := exists_absorbed hr hg
  have hhead := habs.buf
  rw [← habs.toNat_fillLevel] at hhead
  obtain ⟨u, hfinal, hclosed⟩ := transact_final habs.ready habs.fsm hhead
  exact ⟨t, u, habs, transactAll_concat hrun hfinal, hclosed⟩

/-- The status word shows only LGUARD, the error record and FSM (30_encoding.md R82). -/
theorem statusWord_congr {s t : State} (hp : s.params = t.params) (he : s.errs = t.errs) (hf : s.fsm = t.fsm) :
    statusWord s = statusWord t := by
  rw [statusWord, statusWord, hp, he, hf]

/-- What hashing `M` leaves is given by `M`, the parameters and the error record alone. -/
structure Hashed (p : Params) (e : ErrRec) (M : List Byte) (u : State) : Prop where
  fsm : u.fsm = .done
  h : u.h = Latch.put (closedHash (compressBlocks (M.length / 64) p.hInit M) (M.drop (64 * (M.length / 64)))
    (BitVec.ofNat 29 M.length))
  buf : u.buf.readBytes 64 0 = some (lastBlock (M.drop (64 * (M.length / 64))) (BitVec.ofNat 29 M.length))
  len : u.len = BitVec.ofNat 29 M.length
  errs : u.errs = e
  params : u.params = p
  rsp : u.rsp = responseWord (statusWord u) 0x00#8

theorem Absorbed.hashed {s t u : State} {M : List Byte} (habs : Absorbed s M t)
    (hclosed : Closed t (M.drop (64 * (M.length / 64))) u) : Hashed s.params s.errs M u where
  fsm := hclosed.fsm
  h := by rw [hclosed.h, habs.h, habs.len]; rfl
  buf := by rw [hclosed.buf, habs.len]
  len := hclosed.len.trans habs.len
  errs := hclosed.errs.trans habs.errs
  params := hclosed.params.trans habs.params
  rsp := hclosed.rsp

theorem hashed_of_transactAll {s u : State} (hr : Ready s) {M : List Byte}
    (hg : s.params.lenGuard = false ∨ M.length < 2 ^ 29) (hrun : transactAll (messageCommands M) s = .next u) :
    Hashed s.params s.errs M u := by
  obtain ⟨t, u', habs, hrun', hclosed⟩ := exists_closed hr hg
  rw [hrun'] at hrun
  cases hrun
  exact habs.hashed hclosed

/-- Bytes of BUF that were read as the same list are the same. -/
theorem read_eq_of_readBytes_eq {m m' : Memory} {n : Nat} {bs : List Byte} (h : m.readBytes n 0 = some bs)
    (h' : m'.readBytes n 0 = some bs) {a : Nat} (ha : a < n) : m.read a = m'.read a := by
  have hread := ((Memory.readBytes_eq_some _ _ _ _).mp h).2 a ha
  have hread' := ((Memory.readBytes_eq_some _ _ _ _).mp h').2 a ha
  rw [Nat.zero_add] at hread hread'
  exact hread.trans hread'.symm

/-- Settles O44: both runs end in what the message, the parameters and the error record give. -/
theorem initForgetsEarlierMessage : Obligations.InitForgetsEarlierMessage := by
  intro s₁ s₂ t₁ t₂ M hr₁ hr₂ hparams herrs hg hrun₁ hrun₂
  have h₁ := hashed_of_transactAll hr₁ hg hrun₁
  have h₂ := hashed_of_transactAll hr₂ (hparams ▸ hg) hrun₂
  rw [← hparams, ← herrs] at h₂
  have hfsm : t₁.fsm = t₂.fsm := h₁.fsm.trans h₂.fsm.symm
  have herrs' : t₁.errs = t₂.errs := h₁.errs.trans h₂.errs.symm
  have hstatus := statusWord_congr (h₁.params.trans h₂.params.symm) herrs' hfsm
  exact ⟨h₁.h.trans h₂.h.symm, h₁.len.trans h₂.len.symm, hfsm, herrs', by rw [h₁.rsp, h₂.rsp, hstatus],
    fun _ ha => read_eq_of_readBytes_eq h₁.buf h₂.buf ha⟩

end Sys2Proof.Machine
end

section
/-! Proofs of the memory family: the message schedule of a block (20_memory.md R52, 42_schedule.md R144, R145) and the optional
memory map (20_memory.md R55, R57, R58). -/

namespace Sys2Proof.Machine

/-! ## The words of a block and its schedule -/

/-- A word inside the block is its four bytes, read with any default (20_memory.md R52). -/
theorem getElem?_wordsOf_eq_getD {bs : List Byte} {t : Nat} (h : 4 * t + 3 < bs.length) (d : Byte) :
    (wordsOf bs)[t]? =
      some (wordBe (bs.getD (4 * t) d) (bs.getD (4 * t + 1) d) (bs.getD (4 * t + 2) d) (bs.getD (4 * t + 3) d)) := by
  have byte {i : Nat} (hi : i < bs.length) : bs[i]? = some (bs.getD i d) := by simp [hi]
  exact getElem?_wordsOf bs t _ _ _ _ (byte (by omega)) (byte (by omega)) (byte (by omega)) (byte h)

/-- The words of the block stand at the front of its schedule (42_schedule.md R144). -/
theorem getElem?_scheduleOf_of_lt {block : List Byte} {t : Nat} (h : t < block.length / 4) :
    (scheduleOf block)[t]? = (wordsOf block)[t]? :=
  extendBy_prefix 48 _ t (by rwa [length_wordsOf])

@[simp] theorem expandWord_zero : expandWord 0#32 0#32 0#32 0#32 = 0#32 := by decide

@[simp] theorem extendSchedule_replicate_zero (m : Nat) :
    extendSchedule (List.replicate m 0#32) = List.replicate (m + 1) 0#32 := by
  have back (i : Nat) : (List.replicate m 0#32).getD i 0#32 = 0#32 := by
    rw [List.getD_eq_getElem?_getD, List.getElem?_replicate]; split <;> rfl
  rw [extendSchedule, back, back, back, back, expandWord_zero, ← List.replicate_succ']

/-- The recurrence never leaves zero: all its terms are zero on zero words. -/
theorem extendBy_replicate_zero (n m : Nat) :
    extendBy n (List.replicate m 0#32) = List.replicate (m + n) 0#32 := by
  induction n generalizing m with
  | zero => rfl
  | succ n ih => rw [extendBy, extendSchedule_replicate_zero, ih]; congr 1; omega

/-- The words of the one padded block of "abc" (40_padder.md R100): the three bytes and the marker, and the length 24 in the two
halves of the length field. -/
theorem wordsOf_pad_abc :
    wordsOf (pad [0x61#8, 0x62#8, 0x63#8]) =
      0x61626380#32 :: (List.replicate 13 0#32 ++ [0x18000000#32, 0x18000000#32]) := by decide

/-- Settles O53: the first sixteen words are the block's, each later one is the recurrence, and the examples are evaluated. -/
theorem scheduleWords : Obligations.ScheduleWords := by
  refine ⟨fun block hlen => ⟨length_scheduleOf hlen, fun t ht => ?_, fun t hge hlt => ?_⟩, ?_, ?_, ?_⟩
  · rw [getElem?_scheduleOf_of_lt (by omega), getElem?_wordsOf_eq_getD (by omega)]
    rfl
  · have hword : (scheduleOf block)[t]? = some ((scheduleOf block).getD t 0#32) := by
      simp [length_scheduleOf hlen, hlt]
    rw [hword, getD_scheduleOf_of_ge hlen hge hlt]
    rfl
  · have hzero : wordsOf (List.replicate 64 0x00#8) = List.replicate 16 0#32 := by decide
    rw [scheduleOf, hzero, extendBy_replicate_zero]
  · rw [scheduleOf, wordsOf_pad_abc]; decide
  · rw [scheduleOf, wordsOf_pad_abc]; decide

/-! ## One clock edge by what is presented, and the list of a host that holds its command -/

/-- While BUSY no port but `rst_n` is sampled: the edge is the sequencer's step (70_reset_and_hazards.md R261). -/
theorem clockEdge_of_busy {p : Pins} {s : State} (hp : p.rstN = true) (hlive : s.live = true) (hb : s.fsm = .busy) :
    clockEdge p s = tick s := by simp [clockEdge, hp, hlive, hb]

theorem clockEdge_idle {s : State} (hb : s.fsm ≠ .busy) : clockEdge Pins.idle s = .next (restEdge s) := by
  simp [clockEdge, Pins.idle, hb]

theorem clockEdge_command {s : State} (hb : s.fsm ≠ .busy) (w : Word) : clockEdge (Pins.command w) s = acceptWord w s := by
  simp [clockEdge, Pins.command, hb]

theorem afterHeld_of_ready {s : State} (hr : Ready s) (rest : List HostAct) : afterHeld rest s = { s with host := rest } :=
  if_pos ((cmdReady_iff s).mpr hr)

theorem afterHeld_of_not_ready {s : State} (hr : ¬ Ready s) (rest : List HostAct) : afterHeld rest s = s :=
  if_neg (mt (cmdReady_iff s).mp hr)

/-! ## One step, by the memory-mapped access it serves (20_memory.md R58) -/

section
variable {s : State} {addr size : Nat} {x : Word} {rest : List HostAct}

theorem step_busRead_of_ok {reg : MapReg} (hh : s.host = .busRead addr size :: rest) (ha : mapAccess s addr size = .ok reg) :
    step s = clockEdge Pins.idle (serveRead reg rest s) := by
  simp [step, hostEdge, actRefusal, pinsAt, afterAct, hh, ha]

theorem step_busWrite_of_ne_cmd {reg : MapReg} (hh : s.host = .busWrite addr size x :: rest)
    (ha : mapAccess s addr size = .ok reg) (hreg : reg ≠ .cmd) :
    step s = clockEdge Pins.idle { s with host := rest } := by
  cases reg with
  | cmd => exact absurd rfl hreg
  | rsp | status | reserved => simp [step, hostEdge, actRefusal, pinsAt, afterAct, hh, ha]

theorem step_busWrite_of_cmd (hh : s.host = .busWrite addr size x :: rest) (ha : mapAccess s addr size = .ok .cmd) :
    step s = clockEdge (Pins.command x) (afterHeld rest s) := by
  simp [step, hostEdge, actRefusal, pinsAt, afterAct, hh, ha]

theorem step_busRead_of_error {r : Refusal} (hh : s.host = .busRead addr size :: rest)
    (ha : mapAccess s addr size = .error r) : step s = .refused r := by
  simp [step, hostEdge, actRefusal, hh, ha]

theorem step_busWrite_of_error {r : Refusal} (hh : s.host = .busWrite addr size x :: rest)
    (ha : mapAccess s addr size = .error r) : step s = .refused r := by
  simp [step, hostEdge, actRefusal, hh, ha]

end

/-! ## The registers at their offsets -/

/-- What a core that has been reset returns at the offset of each register (20_memory.md R58). -/
theorem exists_mapRead_of_mem {s : State} (hlive : s.live = true) (hbase : s.params.coreBase % 4 = 0) {off : Nat} {x : Word}
    (h : (off, x) ∈ [(0, 0#32), (4, s.rsp), (8, (statusWord s).setWidth 32), (12, 0#32)]) :
    ∃ reg, mapAccess s (s.params.coreBase + off) 4 = .ok reg ∧ mapRead reg s = x := by
  simp only [List.mem_cons, List.not_mem_nil, or_false, Prod.mk.injEq] at h
  obtain ⟨rfl, rfl⟩ | ⟨rfl, rfl⟩ | ⟨rfl, rfl⟩ | ⟨rfl, rfl⟩ := h
  · exact ⟨_, mapAccess_aligned hbase (by decide) (by decide), rfl⟩
  · exact ⟨_, mapAccess_aligned hbase (by decide) (by decide), hostRsp_of_live hlive⟩
  · exact ⟨_, mapAccess_aligned hbase (by decide) (by decide), congrArg (BitVec.setWidth 32) (hostStatus_of_live hlive)⟩
  · exact ⟨_, mapAccess_aligned hbase (by decide) (by decide), rfl⟩

/-- The offsets at which a write is ignored reach a register other than CMD (20_memory.md R58). -/
theorem exists_mapAccess_ne_cmd {s : State} (hbase : s.params.coreBase % 4 = 0) {off : Nat} (h : off ∈ [4, 8, 12]) :
    ∃ reg, mapAccess s (s.params.coreBase + off) 4 = .ok reg ∧ reg ≠ .cmd := by
  simp only [List.mem_cons, List.not_mem_nil, or_false] at h
  obtain rfl | rfl | rfl := h
  all_goals exact ⟨_, mapAccess_aligned hbase (by decide) (by decide), by decide⟩

/-- Settles O12: each access goes by its register to one clock edge, which rests, accepts the word or is the sequencer's step. -/
theorem memoryMap : Obligations.MemoryMap := by
  intro s rest hlive
  refine ⟨fun hbase => ⟨?readReady, ?writeReady, ?readBusy, ?writeBusy, ?cmdReady, ?cmdBusy⟩, ?refused⟩
  case readReady =>
    intro off x hb hh hmem
    obtain ⟨reg, hacc, rfl⟩ := exists_mapRead_of_mem hlive hbase hmem
    rw [step_busRead_of_ok hh hacc, serveRead_of_live hlive]
    exact clockEdge_idle hb
  case writeReady =>
    intro off x hb hh hmem
    obtain ⟨reg, hacc, hreg⟩ := exists_mapAccess_ne_cmd hbase hmem
    rw [step_busWrite_of_ne_cmd hh hacc hreg]
    exact clockEdge_idle hb
  case readBusy =>
    intro off x hb hh hmem
    obtain ⟨reg, hacc, rfl⟩ := exists_mapRead_of_mem hlive hbase hmem
    rw [step_busRead_of_ok hh hacc, serveRead_of_live hlive]
    exact clockEdge_of_busy rfl hlive hb
  case writeBusy =>
    intro off x hb hh hmem
    obtain ⟨reg, hacc, hreg⟩ := exists_mapAccess_ne_cmd hbase hmem
    rw [step_busWrite_of_ne_cmd hh hacc hreg]
    exact clockEdge_of_busy rfl hlive hb
  case cmdReady =>
    intro x hb hh
    rw [step_busWrite_of_cmd hh (mapAccess_cmd hbase), afterHeld_of_ready ⟨hlive, hb⟩]
    exact clockEdge_command (s := { s with host := rest }) hb x
  case cmdBusy =>
    intro x hb hh
    rw [step_busWrite_of_cmd hh (mapAccess_cmd hbase), afterHeld_of_not_ready (fun hr => hr.2 hb)]
    exact clockEdge_of_busy rfl hlive hb
  case refused =>
    intro off size x hlt hbad
    have hacc := mapAccess_undefined hlt hbad
    exact ⟨fun hh => step_busRead_of_error hh hacc, fun hh => step_busWrite_of_error hh hacc⟩

end Sys2Proof.Machine
end

section
/-! Proofs of the encoding family: command words, the assembler and the text encoding, the status and response words, and the
command port (30_encoding.md R70 to R82). -/

namespace Sys2Proof.Machine

/-! ## Words and commands -/

/-- Settles O1: the word of a command lies in its row of the table, whose opcode and zero bits lead the decoder to it. -/
theorem decodeEncodeRoundTrip : Obligations.DecodeEncodeRoundTrip := decode_encode

theorem opcOf_and (x y : Word) : opcOf (x &&& y) = opcOf x &&& opcOf y := BitVec.extractLsb'_and

theorem argOf_and (x y : Word) : argOf (x &&& y) = argOf x &&& argOf y := BitVec.extractLsb'_and

/-- A defined opcode with an argument that keeps its must-be-zero bits clear is the word of a command (30_encoding.md R72, R73). -/
theorem exists_encode_eq_cmdWord {arg : Byte} {opc : BitVec 4} (h6 : opc.toNat < 6)
    (harg : arg &&& argOf (mustBeZero opc) = 0#8) : ∃ i, encode i = cmdWord arg opc := by
  have hopc : opc = 0#4 ∨ opc = 1#4 ∨ opc = 2#4 ∨ opc = 3#4 ∨ opc = 4#4 ∨ opc = 5#4 := by
    clear harg; revert opc; decide
  have noArg (hmask : argOf (mustBeZero opc) = BitVec.allOnes 8) : arg = 0#8 := by
    rwa [hmask, BitVec.and_allOnes] at harg
  obtain rfl | rfl | rfl | rfl | rfl | rfl := hopc
  · exact ⟨.nop, by rw [noArg (by decide), encode]⟩
  · exact ⟨.init, by rw [noArg (by decide), encode]⟩
  · exact ⟨.push arg, rfl⟩
  · exact ⟨.final, by rw [noArg (by decide), encode]⟩
  · have hidx : ∀ a : Byte, a &&& argOf (mustBeZero 4#4) = 0#8 → (a.setWidth 6).setWidth 8 = a := by decide
    exact ⟨.rdhex (arg.setWidth 6), by rw [encode, hidx arg harg]⟩
  · exact ⟨.clrerr, by rw [noArg (by decide), encode]⟩

/-- A word with a defined opcode and no must-be-zero bit set is the word of a command (30_encoding.md R73). -/
theorem exists_encode_eq {w : Word} (h6 : (opcOf w).toNat < 6) (hz : w &&& mustBeZero (opcOf w) = 0#32) :
    ∃ i, encode i = w := by
  have harg : argOf w &&& argOf (mustBeZero (opcOf w)) = 0#8 := by rw [← argOf_and, hz]; rfl
  obtain ⟨i, hi⟩ := exists_encode_eq_cmdWord h6 harg
  exact ⟨i, hi.trans (eq_cmdWord_of_fields (fields_of_mustBeZero h6 hz)).symm⟩

theorem decode_of_illegal {w : Word} (h : 6 ≤ (opcOf w).toNat) : decode w = .illegal := if_pos h

theorem decode_of_reserved {w : Word} (h6 : (opcOf w).toNat < 6) (hz : w &&& mustBeZero (opcOf w) ≠ 0#32) :
    decode w = .reserved := by
  rw [decode, if_neg (by omega), if_pos hz]

/-- The three outcomes of R75: an illegal opcode, a reserved encoding, or the one command whose word this is. -/
theorem decode_cases (w : Word) :
    (6 ≤ (opcOf w).toNat ∧ decode w = .illegal) ∨
      ((opcOf w).toNat < 6 ∧ w &&& mustBeZero (opcOf w) ≠ 0#32 ∧ decode w = .reserved) ∨
      ((opcOf w).toNat < 6 ∧ w &&& mustBeZero (opcOf w) = 0#32 ∧ ∃ i, w = encode i ∧ decode w = .cmd i) := by
  rcases Nat.lt_or_ge (opcOf w).toNat 6 with h6 | h6
  · right
    by_cases hz : w &&& mustBeZero (opcOf w) = 0#32
    · obtain ⟨i, rfl⟩ := exists_encode_eq h6 hz
      exact .inr ⟨h6, hz, i, rfl, decode_encode i⟩
    · exact .inl ⟨h6, hz, decode_of_reserved h6 hz⟩
  · exact .inl ⟨h6, decode_of_illegal h6⟩

theorem eq_encode_of_decode {w : Word} {i : Instr} (h : decode w = .cmd i) : w = encode i := by
  obtain ⟨-, hd⟩ | ⟨-, -, hd⟩ | ⟨-, -, j, hw, hd⟩ := decode_cases w
  · rw [h] at hd; cases hd
  · rw [h] at hd; cases hd
  · rw [h] at hd; cases hd; exact hw

/-- Settles O2: a word that is neither illegal nor reserved has no bit outside the fields of its command. -/
theorem decodedWordIsEncoded : Obligations.DecodedWordIsEncoded := fun _ _ => eq_encode_of_decode

theorem decode_eq_reserved_iff (w : Word) :
    decode w = .reserved ↔ (opcOf w).toNat < 6 ∧ w &&& mustBeZero (opcOf w) ≠ 0#32 := by
  refine ⟨fun h => ?_, fun ⟨h6, hz⟩ => decode_of_reserved h6 hz⟩
  obtain ⟨-, hd⟩ | ⟨h6, hz, -⟩ | ⟨-, -, j, -, hd⟩ := decode_cases w
  · rw [h] at hd; cases hd
  · exact ⟨h6, hz⟩
  · rw [h] at hd; cases hd

/-! ## The rows of the opcode table -/

/-- The `match` column is the opcode alone (30_encoding.md R73). -/
theorem tableMatch_eq_setWidth (i : Instr) : tableMatch i = (opcOf (encode i)).setWidth 32 := by
  cases i <;> simp only [encode, opcOf_cmdWord, tableMatch] <;> decide

/-- The `mask` column is the must-be-zero mask and the opcode bits (30_encoding.md R73). -/
theorem tableMask_eq (i : Instr) : tableMask i = mustBeZero (opcOf (tableMatch i)) ||| 0xF#32 := by
  cases i <;> simp only [tableMask, tableMatch] <;> decide

/-- A word that matches a row of the table has the row's opcode and none of its must-be-zero bits. -/
theorem fields_of_mask_match {w : Word} {i : Instr} (h : w &&& tableMask i = tableMatch i) :
    opcOf w = opcOf (encode i) ∧ w &&& mustBeZero (opcOf w) = 0#32 := by
  have hopc : opcOf w = opcOf (encode i) := by
    have hmask : opcOf (tableMask i) = BitVec.allOnes 4 := by cases i <;> simp only [tableMask] <;> decide
    calc opcOf w = opcOf w &&& opcOf (tableMask i) := by rw [hmask, BitVec.and_allOnes]
      _ = opcOf (encode i &&& tableMask i) := by rw [← opcOf_and, h, (tableRow_of_instr i).1]
      _ = opcOf (encode i) := by rw [opcOf_and, hmask, BitVec.and_allOnes]
  refine ⟨hopc, ?_⟩
  rw [hopc, mustBeZero_opcOf_encode, ← BitVec.and_assoc, h, tableMatch_and_above_opcode]

/-- The row that a word matches is that of the command it spells (30_encoding.md R73). -/
theorem mask_match_iff (w : Word) (i : Instr) :
    w &&& tableMask i = tableMatch i ↔ ∃ j, decode w = .cmd j ∧ tableMatch j = tableMatch i := by
  constructor
  · intro h
    obtain ⟨hopc, hz⟩ := fields_of_mask_match h
    have h6 : (opcOf w).toNat < 6 := hopc ▸ (tableRow_of_instr i).2
    obtain ⟨j, rfl⟩ := exists_encode_eq h6 hz
    exact ⟨j, decode_encode j, by rw [tableMatch_eq_setWidth, hopc, ← tableMatch_eq_setWidth]⟩
  · rintro ⟨j, hd, hmatch⟩
    rw [eq_encode_of_decode hd, tableMask_eq, ← hmatch, ← tableMask_eq]
    exact (tableRow_of_instr j).1

theorem argOf_of_decode_push {w : Word} {b : Byte} (h : decode w = .cmd (.push b)) : argOf w = b := by
  rw [eq_encode_of_decode h, encode, argOf_cmdWord]

theorem idxOf_of_decode_rdhex {w : Word} {idx : BitVec 6} (h : decode w = .cmd (.rdhex idx)) : idxOf w = idx := by
  rw [eq_encode_of_decode h, encode, idxOf_cmdWord_setWidth]

theorem acceptWord_of_reserved {s : State} {w : Word} (hr : Ready s) (hd : decode w = .reserved) :
    acceptWord w s = commandError .rsvdBits s := by
  rw [acceptWord, accepting_of_ready hr, hd]

/-- Settles O3: the table's columns row by row, and the outcomes of the decoder by the fields of the word. -/
theorem spelledAndReservedWords : Obligations.SpelledAndReservedWords :=
  ⟨mask_match_iff, tableMask_eq, by decide, fun _ _ => rfl, fun _ _ h => (argOf_of_decode_push h).symm,
    fun _ _ h => (idxOf_of_decode_rdhex h).symm, decode_eq_reserved_iff, fun _ _ => acceptWord_of_reserved⟩

/-- Settles O4: each sample word is evaluated. -/
theorem sampleWordsDecode : Obligations.SampleWordsDecode := by
  unfold Obligations.SampleWordsDecode
  decide

/-! ## The assembler -/

theorem assemble_of_wf {l : AsmLine} (h : l.wf = true) : assemble l = some (emit l) := if_pos h

theorem assemble_of_not_wf {l : AsmLine} (h : l.wf ≠ true) : assemble l = none := if_neg h

/-- Every line but a raw word emits the words of commands (30_encoding.md R76, R77). -/
theorem exists_emit_eq_map_encode {l : AsmLine} (h : ∀ n, l ≠ .word n) : ∃ is : List Instr, emit l = is.map encode := by
  cases l with
  | nop => exact ⟨[.nop], rfl⟩
  | init => exact ⟨[.init], rfl⟩
  | push b => exact ⟨[.push (BitVec.ofNat 8 b)], rfl⟩
  | final => exact ⟨[.final], rfl⟩
  | rdhex i => exact ⟨[.rdhex (BitVec.ofNat 6 i)], rfl⟩
  | clrerr => exact ⟨[.clrerr], rfl⟩
  | word n => exact absurd rfl (h n)
  | pushs text => exact ⟨pushText text, rfl⟩
  | pushb bs => exact ⟨bs.map fun b => .push (BitVec.ofNat 8 b), by simp [emit]⟩
  | rdall => exact ⟨readAll, rfl⟩
  | digest text => exact ⟨.init :: (pushText text ++ .final :: readAll), rfl⟩

theorem exists_decode_of_mem_assemble {l : AsmLine} {ws : List Word} {w : Word} (ha : assemble l = some ws) (hw : w ∈ ws)
    (hl : ∀ n, l ≠ .word n) : ∃ i, decode w = .cmd i := by
  have hws : emit l = ws := by
    unfold assemble at ha
    split at ha
    · exact Option.some.inj ha
    · cases ha
  obtain ⟨is, his⟩ := exists_emit_eq_map_encode hl
  rw [← hws, his] at hw
  obtain ⟨i, -, rfl⟩ := List.mem_map.mp hw
  exact ⟨i, decode_encode i⟩

theorem assemble_pushb_of_mem_ge {bs : List Nat} {b : Nat} (hmem : b ∈ bs) (hb : 256 ≤ b) :
    assemble (.pushb bs) = none :=
  assemble_of_not_wf fun h => by
    have hlt := of_decide_eq_true (List.all_eq_true.mp h b hmem)
    omega

theorem assemble_pushb_bytes (bs : List Byte) :
    assemble (.pushb (bs.map BitVec.toNat)) = some (bs.map fun b => encode (.push b)) := by
  have hwf : (AsmLine.pushb (bs.map BitVec.toNat)).wf = true := by
    simp only [AsmLine.wf, List.all_map, List.all_eq_true, Function.comp_apply, decide_eq_true_eq]
    exact fun b _ => b.isLt
  rw [assemble_of_wf hwf]
  simp [emit]

theorem assemble_word_toNat (w : Word) : assemble (.word w.toNat) = some [w] := by
  have hwf : (AsmLine.word w.toNat).wf = true := decide_eq_true w.isLt
  rw [assemble_of_wf hwf]
  simp [emit]

theorem assemble_pushs (text : List Char) :
    assemble (.pushs text) = some ((text.flatMap utf8).map fun b => encode (.push b)) := by
  rw [assemble_of_wf rfl, emit, pushText, List.map_map]
  rfl

/-- DIGEST is the message's commands and then the whole digest (30_encoding.md R77). -/
theorem assemble_digest (text : List Char) :
    assemble (.digest text) = some ((messageCommands (text.flatMap utf8) ++ readAll).map encode) := by
  rw [assemble_of_wf rfl, emit, messageCommands, pushText, List.cons_append, List.append_assoc, List.singleton_append]

theorem length_readAll : readAll.length = 64 := by simp [readAll]

theorem getElem?_readAll {i : Nat} (h : i < 64) : readAll[i]? = some (.rdhex (BitVec.ofNat 6 i)) := by
  simp [readAll, h]

/-- Settles O5: a line in range emits the encoded commands it stands for, and a line out of range nothing. -/
theorem assemblerEmitsCommands : Obligations.AssemblerEmitsCommands :=
  ⟨fun _ _ _ => exists_decode_of_mem_assemble,
    fun _ hn => assemble_of_not_wf (by simpa [AsmLine.wf] using hn),
    fun _ hn => assemble_of_not_wf (by simpa [AsmLine.wf] using hn),
    fun _ _ => assemble_pushb_of_mem_ge,
    fun _ hn => assemble_of_not_wf (by simpa [AsmLine.wf] using hn),
    assemble_word_toNat, by decide, by decide, by decide, by decide,
    fun _ hn => assemble_of_wf (decide_eq_true hn), fun _ hn => assemble_of_wf (decide_eq_true hn),
    assemble_pushs, rfl, assemble_pushb_bytes, rfl, assemble_digest, length_readAll, fun _ => getElem?_readAll⟩

/-! ## The text encoding -/

/-- A byte that is a base and some bits of the code point below it has the base's mark above those bits. -/
theorem marked_shiftRight {base k n : Nat} {mark : Byte} (hbase : base = mark.toNat * 2 ^ n) (hk : k < 2 ^ n)
    (hlt : base + k < 256) : BitVec.ofNat 8 (base + k) >>> n = mark := by
  apply BitVec.eq_of_toNat_eq
  rw [BitVec.toNat_ushiftRight, BitVec.toNat_ofNat, Nat.mod_eq_of_lt hlt, Nat.shiftRight_eq_div_pow, hbase, Nat.add_comm,
    Nat.add_mul_div_right _ _ (Nat.two_pow_pos n), Nat.div_eq_of_lt hk, Nat.zero_add]

theorem utf8_of_lt_0x80 {c : Char} (h : c.toNat < 0x80) : utf8 c = [BitVec.ofNat 8 c.toNat] := if_pos h

theorem utf8_of_lt_0x800 {c : Char} (h1 : 0x80 ≤ c.toNat) (h2 : c.toNat < 0x800) :
    utf8 c = [BitVec.ofNat 8 (0xC0 + c.toNat / 64), BitVec.ofNat 8 (0x80 + c.toNat % 64)] := by
  rw [utf8, if_neg (by omega), if_pos h2]

theorem utf8_of_lt_0x10000 {c : Char} (h1 : 0x800 ≤ c.toNat) (h2 : c.toNat < 0x10000) :
    utf8 c = [BitVec.ofNat 8 (0xE0 + c.toNat / 4096), BitVec.ofNat 8 (0x80 + c.toNat / 64 % 64),
      BitVec.ofNat 8 (0x80 + c.toNat % 64)] := by
  rw [utf8, if_neg (by omega), if_neg (by omega), if_pos h2]

theorem utf8_of_ge_0x10000 {c : Char} (h : 0x10000 ≤ c.toNat) :
    utf8 c = [BitVec.ofNat 8 (0xF0 + c.toNat / 262144), BitVec.ofNat 8 (0x80 + c.toNat / 4096 % 64),
      BitVec.ofNat 8 (0x80 + c.toNat / 64 % 64), BitVec.ofNat 8 (0x80 + c.toNat % 64)] := by
  rw [utf8, if_neg (by omega), if_neg (by omega), if_neg (by omega)]

/-- A continuation byte has the mark 10 above its six bits of the code point. -/
theorem continuation_shiftRight (n : Nat) : BitVec.ofNat 8 (0x80 + n % 64) >>> 6 = 0x02#8 :=
  marked_shiftRight rfl (by omega) (by omega)

theorem char_toNat_lt (c : Char) : c.toNat < 0x110000 := by
  obtain h | ⟨-, h⟩ := c.valid
  · exact Nat.lt_trans h (by decide)
  · exact h

/-- The bytes are those of Lean's encoder, which masks the bits of the code point where the model's ranges bound them. -/
theorem utf8_eq_utf8EncodeChar (c : Char) : (utf8 c).map BitVec.toNat = (String.utf8EncodeChar c).map UInt8.toNat := by
  have hmax := char_toNat_lt c
  have hval : c.val.toNat = c.toNat := rfl
  simp only [String.utf8EncodeChar, hval]
  rcases Nat.lt_or_ge c.toNat 0x80 with h1 | h1
  · rw [utf8_of_lt_0x80 h1, if_pos (by omega)]
    rfl
  rcases Nat.lt_or_ge c.toNat 0x800 with h2 | h2
  · rw [utf8_of_lt_0x800 h1 h2, if_neg (by omega), if_pos (by omega)]
    simp only [List.map_cons, List.map_nil, BitVec.toNat_ofNat, UInt8.toNat_ofNat', List.cons.injEq, and_true]
    omega
  rcases Nat.lt_or_ge c.toNat 0x10000 with h3 | h3
  · rw [utf8_of_lt_0x10000 h2 h3, if_neg (by omega), if_neg (by omega), if_pos (by omega)]
    simp only [List.map_cons, List.map_nil, BitVec.toNat_ofNat, UInt8.toNat_ofNat', List.cons.injEq, and_true]
    omega
  · rw [utf8_of_ge_0x10000 h3, if_neg (by omega), if_neg (by omega), if_neg (by omega)]
    simp only [List.map_cons, List.map_nil, BitVec.toNat_ofNat, UInt8.toNat_ofNat', List.cons.injEq, and_true]
    omega

/-- Settles O57: in each range the marks stand above the bits of the code point, which the bytes carry in order. -/
theorem textEncodingIsUtf8 : Obligations.TextEncodingIsUtf8 := by
  intro c
  have hmax := char_toNat_lt c
  refine ⟨fun h => ?one, fun h1 h2 => ?two, fun h1 h2 => ?three, fun h => ?four, utf8_eq_utf8EncodeChar c⟩
  case one =>
    refine ⟨_, utf8_of_lt_0x80 h, ?_⟩
    rw [BitVec.toNat_ofNat]
    omega
  case two =>
    refine ⟨_, _, utf8_of_lt_0x800 h1 h2, marked_shiftRight rfl (by omega) (by omega), continuation_shiftRight _, ?_⟩
    simp only [BitVec.toNat_ofNat]
    omega
  case three =>
    refine ⟨_, _, _, utf8_of_lt_0x10000 h1 h2, marked_shiftRight rfl (by omega) (by omega), continuation_shiftRight _,
      continuation_shiftRight _, ?_⟩
    simp only [BitVec.toNat_ofNat]
    omega
  case four =>
    refine ⟨_, _, _, _, utf8_of_ge_0x10000 h, marked_shiftRight rfl (by omega) (by omega), continuation_shiftRight _,
      continuation_shiftRight _, continuation_shiftRight _, ?_⟩
    simp only [BitVec.toNat_ofNat]
    omega

/-! ## The status word -/

theorem statusWord_fsm (s : State) : (statusWord s).extractLsb' 0 3 = s.fsm.code := by
  apply BitVec.eq_of_getLsbD_eq
  intro i hi
  simp [statusWord_getLsbD, hi]

theorem statusWord_err (s : State) : (statusWord s).getLsbD 3 = s.errs.err := by
  rw [statusWord_getLsbD]; rfl

theorem statusWord_ecode (s : State) : (statusWord s).extractLsb' 4 4 = s.errs.ecode.code := by
  apply BitVec.eq_of_getLsbD_eq
  intro i hi
  simp [statusWord_getLsbD, hi, show ¬ 4 + i < 3 by omega, show 4 + i ≠ 3 by omega, show 4 + i < 8 by omega]

theorem statusWord_eovf (s : State) : (statusWord s).getLsbD 8 = s.errs.eovf := by
  rw [statusWord_getLsbD]; rfl

theorem statusWord_lguard (s : State) : (statusWord s).getLsbD 9 = s.params.lenGuard := by
  rw [statusWord_getLsbD]; rfl

theorem statusWord_zero (s : State) : (statusWord s).extractLsb' 10 6 = 0#6 := by
  apply BitVec.eq_of_getLsbD_eq
  intro i hi
  simp [statusWord_getLsbD, show ¬ 10 + i < 3 by omega, show 10 + i ≠ 3 by omega, show ¬ 10 + i < 8 by omega,
    show 10 + i ≠ 8 by omega, show 10 + i ≠ 9 by omega]

/-- Settles O13: the six fields of the status word, with the codes of FSM and of the cause. -/
theorem statusWordFields : Obligations.StatusWordFields := fun s =>
  ⟨by rw [statusWord_fsm]; cases s.fsm <;> rfl, statusWord_err s, by rw [statusWord_ecode]; cases s.errs.ecode <;> rfl,
    statusWord_eovf s, statusWord_lguard s, statusWord_zero s⟩

theorem Fsm.code_lt (f : Fsm) : f.code.toNat < 4 := by cases f <;> decide

theorem Cause.code_lt (c : Cause) : c.code.toNat < 5 := by cases c <;> decide

theorem Cause.code_eq_zero_iff (c : Cause) : c.code = 0#4 ↔ c = .none := by cases c <;> decide

/-! ## What a read before the first reset can show -/

/-- The free bits that stand for FSM code `f`, an error record with these fields and cause code `c + 1` (30_encoding.md R82). -/
def freeStatusBits (f c : BitVec 2) (err eovf : Bool) : BitVec 16 :=
  0#7 ++ BitVec.ofBool eovf ++ 0#2 ++ c ++ BitVec.ofBool err ++ 0#1 ++ f

theorem freeStatusBits_fields (f c : BitVec 2) (err eovf : Bool) :
    (freeStatusBits f c err eovf).extractLsb' 0 2 = f ∧ (freeStatusBits f c err eovf).getLsbD 3 = err ∧
      (freeStatusBits f c err eovf).extractLsb' 4 2 = c ∧ (freeStatusBits f c err eovf).getLsbD 8 = eovf := by
  revert f c err eovf; decide

/-- Every error record whose cause is NONE exactly when it has no error comes from some free bits (60_exceptions.md R221). -/
theorem exists_cause_bits {e : ErrRec} (h : e.ecode = .none ↔ e.err = false) :
    ∃ c, (if e.err then Cause.ofBits c else .none) = e.ecode := by
  cases herr : e.err with
  | false => exact ⟨0#2, (h.mpr herr).symm⟩
  | true => exact cause_ofBits_surjective (mt h.mp (by simp [herr]))

/-- Each FSM value goes with each such error record in some free status word (30_encoding.md R82, 93 X8). -/
theorem exists_undefinedStatus_eq (s : State) (f : Fsm) {e : ErrRec} (h : e.ecode = .none ↔ e.err = false) :
    ∃ x, undefinedStatus x s = statusWord { s with fsm := f, errs := e } := by
  obtain ⟨fb, hf⟩ := fsm_ofBits_surjective f
  obtain ⟨cb, hc⟩ := exists_cause_bits h
  obtain ⟨hfsm, herr, hcause, heovf⟩ := freeStatusBits_fields fb cb e.err e.eovf
  refine ⟨freeStatusBits fb cb e.err e.eovf, ?_⟩
  rw [undefinedStatus, undefinedErrs, hfsm, herr, hcause, heovf, hf, hc]

/-- A response word carries any free status bits and any byte, so each pair of them is read for some free word. -/
theorem exists_undefinedResponse_eq (s : State) (x : BitVec 16) (d : Byte) :
    ∃ y, undefinedResponse y s = responseWord (undefinedStatus x s) d :=
  ⟨responseWord x d, by rw [undefinedResponse, responseWord_stat, responseWord_data]⟩

theorem undefinedStatus_ecode_eq_zero_iff (x : BitVec 16) (s : State) :
    (undefinedStatus x s).extractLsb' 4 4 = 0#4 ↔ (undefinedStatus x s).getLsbD 3 = false := by
  rw [undefinedStatus, statusWord_ecode, statusWord_err, Cause.code_eq_zero_iff]
  exact undefinedErrs_ecode x

/-- Settles O58: the free bits choose FSM and the error record of a status word, whose fields bound what is read. -/
theorem undefinedStatusFields : Obligations.UndefinedStatusFields := by
  intro s
  refine ⟨fun x => ⟨statusWord_zero _, statusWord_lguard _, ?_, ?_, undefinedStatus_ecode_eq_zero_iff x s⟩,
    fun x => ⟨responseWord_zero _ _, responseWord_data _ _, responseWord_stat _ _⟩, fun f e he => ?_⟩
  · rw [undefinedStatus, statusWord_fsm]
    exact Fsm.code_lt _
  · rw [undefinedStatus, statusWord_ecode]
    exact Cause.code_lt _
  · obtain ⟨x, hx⟩ := exists_undefinedStatus_eq s f he
    exact ⟨⟨x, hx⟩, fun d => hx ▸ exists_undefinedResponse_eq s x d⟩

/-! ## Responses -/

/-- RSP holds a response word with the status of the state, and the command is complete (30_encoding.md R80). -/
structure Responded (t : State) : Prop where
  zero : t.rsp.extractLsb' 8 8 = 0#8
  stat : t.rsp.extractLsb' 16 16 = statusWord t
  not_busy : t.fsm ≠ .busy

theorem responded_respond {s : State} (h : s.fsm ≠ .busy) (d : Byte) : Responded (respond d s) where
  zero := responseWord_zero _ d
  stat := responseWord_stat _ d
  not_busy := h

theorem responded_finishCommand (s : State) : Responded (finishCommand s) :=
  responded_respond (s := { s with fsm := s.seq.ret.fsm }) s.seq.ret.fsm_ne_busy _

/-- What an edge does to the response port: it writes a response, or it leaves RSP alone but for a reset. -/
theorem edge_response {s t : State} (h : Edge s t) :
    (t.rspValid = true ∧ Responded t) ∨ (t.rspValid = false ∧ (ResetEdge s ∨ t.rsp = s.rsp)) := by
  cases h with
  | reset hr => exact .inr ⟨rfl, .inl hr⟩
  | load | round | nextBlock | pushLast | final | rest => exact .inr ⟨rfl, .inr (by simp)⟩
  | finish => exact .inl ⟨rfl, responded_finishCommand _⟩
  | error c hr => exact .inl ⟨rfl, responded_respond (by simpa using hr.2) _⟩
  | nop ha => exact .inl ⟨rfl, responded_respond (by simpa using ha.1.2) _⟩
  | init => exact .inl ⟨rfl, responded_respond (by simp) _⟩
  | push b ha => exact .inl ⟨rfl, responded_respond (by simpa using ha.1.2) _⟩
  | rdhex idx ha => exact .inl ⟨rfl, responded_respond (by simpa using ha.1.2) _⟩
  | clrerr ha => exact .inl ⟨rfl, responded_respond (by simpa using ha.1.2) _⟩

/-- Settles O14: an edge that ends with `rsp_valid` wrote a response, and any other but a reset edge leaves RSP. -/
theorem responseCarriesStatus : Obligations.ResponseCarriesStatus := by
  intro s t hstep
  obtain ⟨hv, hresp⟩ | ⟨hv, hrsp⟩ := edge_response (edge_of_step hstep)
  · exact ⟨fun _ => ⟨hresp.zero, hresp.stat, hresp.not_busy⟩, fun hf => by simp [hv] at hf⟩
  · exact ⟨fun ht => by simp [hv] at ht, fun _ hr => hrsp.resolve_left (by simp [ResetEdge, hr])⟩

/-! ## The command port -/

theorem acceptWord_of_decode {s : State} {w : Word} {i : Instr} (hr : Ready s) (hd : decode w = .cmd i) :
    acceptWord w s = exec i s := by
  rw [acceptWord, accepting_of_ready hr, hd]

/-- A command driven for one edge is accepted by a core that is not BUSY (30_encoding.md R81). -/
theorem step_drive_command {s : State} {w : Word} {rest : List HostAct} (hb : s.fsm ≠ .busy)
    (hh : s.host = .drive (Pins.command w) :: rest) : step s = acceptWord w { s with host := rest } := by
  have hedge : step s = clockEdge (Pins.command w) { s with host := rest } := by
    simp [step, hostEdge, actRefusal, pinsAt, afterAct, hh]
  rw [hedge]
  exact clockEdge_command (s := { s with host := rest }) hb w

/-- A write to CMD is a command presented (20_memory.md R58). -/
theorem step_writeCmd_of_ready {s : State} {w : Word} {rest : List HostAct} (hr : Ready s)
    (hbase : s.params.coreBase % 4 = 0) (hh : s.host = .busWrite s.params.coreBase 4 w :: rest) :
    step s = acceptWord w { s with host := rest } := by
  rw [step_busWrite_of_cmd hh (mapAccess_cmd hbase), afterHeld_of_ready hr]
  exact clockEdge_command (s := { s with host := rest }) hr.2 w

/-- Settles O6: each way of presenting a word makes the step accept it, and the accepted word runs its command. -/
theorem stepRunsDecodedCommand : Obligations.StepRunsDecodedCommand := by
  intro s w i rest hr hd
  have hrun : acceptWord w { s with host := rest } = exec i { s with host := rest } :=
    acceptWord_of_decode (s := { s with host := rest }) hr hd
  exact ⟨fun hh => (step_send_of_ready hr hh).trans hrun, fun hh => (step_drive_command hr.2 hh).trans hrun,
    fun hbase hh => (step_writeCmd_of_ready hr hbase hh).trans hrun⟩

theorem outputs_of_live {s : State} (h : s.live = true) :
    outputs true s = some { cmdReady := cmdReady s, rspValid := s.rspValid, rspWord := s.rsp, statusO := statusWord s } := by
  simp [outputs, h]

/-- With nothing to do the host presents no command, and the edge rests (30_encoding.md R79). -/
theorem step_no_action {s : State} (hb : s.fsm ≠ .busy) (hh : s.host = []) : step s = .next (restEdge s) := by
  have hedge : step s = clockEdge Pins.idle s := by simp [step, hostEdge, actRefusal, pinsAt, afterAct, hh]
  rw [hedge, clockEdge_idle hb]

/-- Settles O11: the ports of a core that has been reset, and the resting edge. -/
theorem outputsAndQuietEdge : Obligations.OutputsAndQuietEdge := by
  intro s hlive
  refine ⟨⟨_, outputs_of_live hlive, ?_, rfl, rfl, rfl⟩, step_no_action⟩
  rw [cmdReady_iff, Ready, and_iff_right hlive]

end Sys2Proof.Machine
end

section
/-! Proofs of the padder family: the padded message and its length field, PUSH and FINAL, and the digest of a whole message
(40_padder.md R100 to R113, 43_compression.md R177). -/

namespace Sys2Proof.Machine

/-! ## The length field -/

theorem toNat_bitLength32 (l : BitVec 29) : (bitLength32 l).toNat = 8 * l.toNat := by
  have hval : (bitLength32 l).toNat = l.toNat <<< 3 ||| 0 := BitVec.toNat_append l 0#3
  rw [hval, Nat.or_zero, Nat.shiftLeft_eq, Nat.mul_comm]

/-- B32 of the counter is the bit length of the message modulo 2^32, wrapped LEN or not (40_padder.md R109). -/
theorem toNat_bitLength32_ofNat (L : Nat) : (bitLength32 (BitVec.ofNat 29 L)).toNat = 8 * L % 2 ^ 32 := by
  rw [toNat_bitLength32, BitVec.toNat_ofNat]
  omega

/-- The bytes of the field are those of R108's formula, with B32 as a word. -/
theorem lengthField_eq_lengthBytes (L : Nat) : lengthField L = lengthBytes (BitVec.ofNat 32 (8 * L)) := rfl

theorem bitLength32_ofNat (L : Nat) : bitLength32 (BitVec.ofNat 29 L) = BitVec.ofNat 32 (8 * L) :=
  BitVec.eq_of_toNat_eq ((toNat_bitLength32_ofNat L).trans (BitVec.toNat_ofNat _ _).symm)

theorem lengthFieldOf_ofNat (L : Nat) : lengthFieldOf (BitVec.ofNat 29 L) = lengthField L := by
  rw [lengthFieldOf, bitLength32_ofNat, lengthField_eq_lengthBytes]

@[simp] theorem length_lengthField (L : Nat) : (lengthField L).length = 8 := rfl

/-- Byte `i` of the first half, the least significant first (40_padder.md R108). -/
theorem getElem?_lengthField (L : Nat) {i : Nat} (hi : i < 4) :
    (lengthField L)[i]? = some (BitVec.ofNat 8 (8 * L % 2 ^ 32 / 256 ^ i)) := by
  have hshift : i * 8 % 32 = 8 * i := by omega
  have hpow : 2 ^ (8 * i) = 256 ^ i := Nat.pow_mul 2 8 i
  rw [lengthField, List.getElem?_map, List.getElem?_range (by omega), Option.map_some, hshift, Nat.shiftRight_eq_div_pow, hpow]

/-- The field sees the length modulo 2^29 alone (40_padder.md R109). -/
theorem lengthField_add_mul (L k : Nat) : lengthField (L + 2 ^ 29 * k) = lengthField L := by
  have hmod : 8 * (L + 2 ^ 29 * k) % 2 ^ 32 = 8 * L % 2 ^ 32 := by omega
  rw [lengthField, hmod, lengthField]

/-- Settles O47: B32 from the counter is B32 from the length, and the field is a function of B32. -/
theorem lengthFieldRule : Obligations.LengthFieldRule :=
  ⟨fun _ => rfl, toNat_bitLength32_ofNat, lengthFieldOf_ofNat, fun L => ⟨length_lengthField L, rfl⟩,
    fun L _ => getElem?_lengthField L, lengthField_add_mul, by decide, by decide, by decide, by decide⟩

/-! ## The padded message -/

/-- Settles O45: rounding up to the next multiple of 64 is linear arithmetic. -/
theorem paddedLengthIsSmallest : Obligations.PaddedLengthIsSmallest := by
  refine ⟨fun L => ⟨?_, ?_, fun P hP hle => ?_, ?_⟩, by decide, by decide, by decide⟩
  all_goals simp only [nblocks, paddedLength]; omega

theorem add_nine_le_paddedLength (L : Nat) : L + 9 ≤ paddedLength L :=
  (paddedLengthIsSmallest.1 L).2.1

/-- The bytes after the marker are the padding zeros. -/
theorem getElem?_marker_zeros {k i : Nat} (tail : List Byte) (h0 : 0 < i) (hi : i ≤ k) :
    (marker :: (List.replicate k 0x00#8 ++ tail))[i]? = some 0x00#8 := by
  obtain ⟨j, rfl⟩ := Nat.exists_eq_add_of_lt h0
  simp [List.getElem?_append_left, show j < k by omega]

/-- What follows the padding zeros. -/
theorem drop_marker_zeros (k : Nat) (tail : List Byte) :
    (marker :: (List.replicate k 0x00#8 ++ tail)).drop (k + 1) = tail := by
  simp

theorem length_pad (M : List Byte) : (pad M).length = paddedLength M.length := by
  have hle := add_nine_le_paddedLength M.length
  simp [pad]
  omega

/-- Settles O46: `pad` is the message, the marker, zeros and the length field, in that order. -/
theorem paddedMessageShape : Obligations.PaddedMessageShape := by
  intro M
  have hle := add_nine_le_paddedLength M.length
  have hmod : paddedLength M.length % 64 = 0 := (paddedLengthIsSmallest.1 M.length).1
  rw [length_pad]
  refine ⟨rfl, by omega, hmod, List.take_left, ?_, fun i hgt hlt => ?_, ?_⟩
  · rw [pad, List.getElem?_append_right le_rfl, Nat.sub_self]
    rfl
  · rw [pad, List.getElem?_append_right (by omega)]
    exact getElem?_marker_zeros _ (by omega) (by omega)
  · have hfield : paddedLength M.length - 8 = M.length + (paddedLength M.length - M.length - 9 + 1) := by omega
    rw [hfield, pad, List.drop_length_add_append, drop_marker_zeros]

/-! ## What FINAL writes from the fill level on -/

theorem closeTail_of_le {l : BitVec 29} (h : (fillLevel l).toNat ≤ 55) :
    closeTail l = marker :: (List.replicate (55 - (fillLevel l).toNat) 0x00#8 ++ lengthFieldOf l) := if_pos h

theorem closeTail_of_ge {l : BitVec 29} (h : 56 ≤ (fillLevel l).toNat) :
    closeTail l = marker :: List.replicate (63 - (fillLevel l).toNat) 0x00#8 := if_neg (by omega)

/-- The fill level counts the bytes after the whole blocks, wrapped LEN or not. -/
theorem toNat_fillLevel_ofNat (L : Nat) : (fillLevel (BitVec.ofNat 29 L)).toNat = L % 64 := by
  rw [toNat_fillLevel, BitVec.toNat_ofNat]
  omega

/-- The padded message is the message, what FINAL writes behind it, and the second closing block if there is one. -/
theorem pad_eq_append_closeTail (M : List Byte) :
    pad M = M ++ closeTail (BitVec.ofNat 29 M.length) ++
      if M.length % 64 ≤ 55 then [] else secondBlock (BitVec.ofNat 29 M.length) := by
  have hfill := toNat_fillLevel_ofNat M.length
  by_cases h : M.length % 64 ≤ 55
  · have hzeros : paddedLength M.length - M.length - 9 = 55 - M.length % 64 := by unfold paddedLength; omega
    rw [if_pos h, closeTail_of_le (hfill.trans_le h), hfill, lengthFieldOf_ofNat, List.append_nil, pad, hzeros]
  · have hzeros : paddedLength M.length - M.length - 9 = 63 - M.length % 64 + 56 := by unfold paddedLength; omega
    rw [if_neg h, closeTail_of_ge (by omega), hfill, secondBlock, lengthFieldOf_ofNat, pad, hzeros, List.replicate_add]
    simp

theorem read_closeBuffer_inside (s : State) {a : Nat} (hf : (fillLevel s.len).toNat ≤ a) (ha : a < 64) :
    (closeBuffer s).read a = (closeTail s.len)[a - (fillLevel s.len).toNat]? := by
  have hlen := fillLevel_add_length_closeTail s.len
  rw [closeBuffer_eq, Memory.read_writeBytes, if_pos (by omega)]

theorem read_closeBuffer_marker (s : State) : (closeBuffer s).read (fillLevel s.len).toNat = some 0x80#8 := by
  rw [read_closeBuffer_inside s le_rfl (fillLevel s.len).isLt, Nat.sub_self, closeTail]
  split <;> rfl

/-- One closing block: zeros up to byte 55 (40_padder.md R111). -/
theorem read_closeBuffer_zero_of_le {s : State} (h : (fillLevel s.len).toNat ≤ 55) {a : Nat}
    (hgt : (fillLevel s.len).toNat < a) (hlt : a < 56) : (closeBuffer s).read a = some 0x00#8 := by
  rw [read_closeBuffer_inside s (by omega) (by omega), closeTail_of_le h]
  exact getElem?_marker_zeros _ (by omega) (by omega)

/-- One closing block: the length field in the last eight bytes (40_padder.md R111). -/
theorem read_closeBuffer_field_of_le {s : State} (h : (fillLevel s.len).toNat ≤ 55) {i : Nat} (hi : i < 8) :
    (closeBuffer s).read (56 + i) = (lengthFieldOf s.len)[i]? := by
  have hindex : 56 + i - (fillLevel s.len).toNat = 55 - (fillLevel s.len).toNat + 1 + i := by omega
  rw [read_closeBuffer_inside s (by omega) (by omega), closeTail_of_le h, hindex, ← List.getElem?_drop, drop_marker_zeros]

/-- Two closing blocks: zeros up to the end of the first (40_padder.md R112). -/
theorem read_closeBuffer_zero_of_ge {s : State} (h : 56 ≤ (fillLevel s.len).toNat) {a : Nat}
    (hgt : (fillLevel s.len).toNat < a) (hlt : a < 64) : (closeBuffer s).read a = some 0x00#8 := by
  rw [read_closeBuffer_inside s (by omega) hlt, closeTail_of_ge h, ← List.append_nil (List.replicate _ _)]
  exact getElem?_marker_zeros _ (by omega) (by omega)

/-! ## PUSH and FINAL at their accepting edge -/

theorem exec_push_outside_absorb {s : State} (hr : Ready s) (hf : s.fsm ≠ .absorb) (b : Byte) :
    exec (.push b) s = commandError .seq s := by
  change execPush b s = _
  rw [execPush, accepting_of_ready hr, if_pos hf]

/-- Under the guard the byte after the last admissible one is not taken (40_padder.md R104). -/
theorem exec_push_of_guard {s : State} (hr : Ready s) (hf : s.fsm = .absorb) (hg : s.params.lenGuard = true)
    (hl : s.len = lastLen) (b : Byte) : exec (.push b) s = commandError .tooLarge s := by
  change execPush b s = _
  rw [execPush, accepting_of_ready hr, if_neg (not_not.mpr hf), if_pos (by simp [hg, hl])]

theorem exec_final_outside_absorb {s : State} (hr : Ready s) (hf : s.fsm ≠ .absorb) :
    exec .final s = commandError .seq s := by
  change execFinal s = _
  rw [execFinal, accepting_of_ready hr, if_pos hf]

/-- Settles O19: by FSM, the guard and the fill level. -/
theorem pushAcceptance : Obligations.PushAcceptance := by
  intro s b hr
  refine ⟨fun hf => exec_push_outside_absorb hr hf b, fun hf hg hl => exec_push_of_guard hr hf hg hl b, fun hf hg => ?_⟩
  refine ⟨_, s.buf.write (fillLevel s.len).toNat b, exec_push_of_absorb hr hf hg b, ?_, fun a hne => ?_,
    fun hfill => if_neg hfill, fun hfill => if_pos hfill⟩
  · rw [Memory.read_write, if_pos rfl]
  · rw [Memory.read_write, if_neg hne]

/-- Settles O22: by FSM, then BUF at each address around the fill level. -/
theorem finalAcceptance : Obligations.FinalAcceptance := by
  intro s hr
  refine ⟨exec_final_outside_absorb hr, fun hf => ?_⟩
  exact ⟨closeBuffer s, exec_final_of_absorb hr hf, fun _ => read_closeBuffer_outside s, read_closeBuffer_marker s,
    fun h => ⟨fun _ => read_closeBuffer_zero_of_le h, fun _ => read_closeBuffer_field_of_le h⟩,
    fun h _ => read_closeBuffer_zero_of_ge h⟩

/-- A PUSH that the guard admits raises no error and is counted, whether or not it fills the block. -/
theorem exec_push_errs_len {s : State} (hr : Ready s) (hf : s.fsm = .absorb)
    (hg : s.params.lenGuard = false ∨ s.len ≠ lastLen) (b : Byte) :
    ∃ t, exec (.push b) s = .next t ∧ t.errs = s.errs ∧ t.len = s.len + 1#29 := by
  refine ⟨_, exec_push_of_absorb hr hf hg b, ?_⟩
  split <;> exact ⟨rfl, rfl⟩

/-- Settles O21: without the guard every PUSH is taken; with it the error leaves the message open. -/
theorem lengthGuard : Obligations.LengthGuard := by
  intro s b hr hf
  refine ⟨fun hg => exec_push_errs_len hr hf (.inl hg) b, fun hg hl => ?_⟩
  have hfinal : exec .final (errorState .tooLarge s) = .next (finalState (errorState .tooLarge s)) :=
    exec_final_of_absorb hr hf
  exact ⟨errorState .tooLarge s, exec_push_of_guard hr hf hg hl b, rfl, hf, rfl, rfl, rfl, _, hfinal, rfl⟩

/-! ## PUSH and FINAL as transactions -/

theorem BufFilled.exists_readBytes {m : Memory} {n : Nat} (h : BufFilled m n) : ∃ bs, m.readBytes n 0 = some bs :=
  Option.isSome_iff_exists.mp ((readBytes_isSome_iff_bufFilled m n).mpr h)

/-- Settles O23: a PUSH that leaves room is its accepting edge; the one that fills the block is drained. -/
theorem pushTransaction : Obligations.PushTransaction := by
  intro s b hr hf hg hfilled
  refine ⟨fun hfill => ?_, fun hfill => ?_⟩
  · rw [transact_push hr hf hg hfill, exec_push_of_absorb hr hf hg, if_neg hfill]
  · rw [hfill] at hfilled
    obtain ⟨block, hblock⟩ := hfilled.exists_readBytes
    have hbuf : (s.buf.write (fillLevel s.len).toNat b).readBytes 64 0 = some (block ++ [b]) := by
      rw [hfill]
      exact Memory.readBytes_write hblock
    exact ⟨_, block, hblock, transact_push_last hr hf hg hfill hblock b, rfl, hbuf, rfl, rfl, rfl, rfl, rfl,
      finishCommand_rsp_statusWord _, rfl⟩

/-- Settles O24: FINAL closes the message; the two cases of R111 and R112 are those of its closing blocks. -/
theorem finalTransaction : Obligations.FinalTransaction := by
  intro s hr hf hfilled
  obtain ⟨head, hhead⟩ := hfilled.exists_readBytes
  obtain ⟨t, hrun, hc⟩ := transact_final hr hf hhead
  refine ⟨t, head, lastBlock head s.len, hhead, hrun, fun hle => ?_, fun hge => ?_, hc.buf, hc.fsm, hc.pend2, hc.len,
    hc.errs, hc.params, hc.host, hc.rsp, hc.rspValid⟩
  · rw [hc.h, closedHash, lastBlock, if_pos hle, if_pos hle, closeTail_of_le hle]
    exact ⟨rfl, rfl⟩
  · have hnot : ¬ (fillLevel s.len).toNat ≤ 55 := by omega
    rw [hc.h, closedHash, lastBlock, if_neg hnot, if_neg hnot, closeTail_of_ge hge]
    exact ⟨rfl, rfl⟩

/-! ## The digest of a message -/

/-- One more block behind whole blocks is compressed after them (43_compression.md R177). -/
theorem hfinal_append_block (h : Vector Word 8) {P block : List Byte} (hP : P.length % 64 = 0)
    (hblock : block.length = 64) : hfinal h (P ++ block) = compress (hfinal h P) block := by
  have hn : (P ++ block).length / 64 = P.length / 64 + 1 := by rw [List.length_append, hblock]; omega
  have hlen : 64 * (P.length / 64) = P.length := by omega
  rw [hfinal, hn, compressBlocks_succ, compressBlocks_append _ _ _ _ hlen.le, hlen, List.drop_left,
    List.take_of_length_le hblock.le, hfinal]

/-- The whole blocks of a message. -/
theorem hfinal_take (h : Vector Word 8) (M : List Byte) :
    hfinal h (M.take (64 * (M.length / 64))) = compressBlocks (M.length / 64) h M := by
  have hlen : (M.take (64 * (M.length / 64))).length = 64 * (M.length / 64) := by rw [List.length_take]; omega
  rw [hfinal, hlen, Nat.mul_div_cancel_left _ (by decide), ← compressBlocks_append _ _ _ _ hlen.ge, List.take_append_drop]

/-- What FINAL leaves in H is the hash of the padded message (40_padder.md R113): the whole blocks were compressed by PUSH, and
the closing blocks are the rest of the padding. -/
theorem hfinal_pad (h : Vector Word 8) (M : List Byte) :
    hfinal h (pad M) = closedHash (compressBlocks (M.length / 64) h M) (M.drop (64 * (M.length / 64)))
      (BitVec.ofNat 29 M.length) := by
  have hfill := toNat_fillLevel_ofNat M.length
  have hclose := fillLevel_add_length_closeTail (BitVec.ofNat 29 M.length)
  have hwhole : (M.take (64 * (M.length / 64))).length % 64 = 0 := by rw [List.length_take]; omega
  have hblock : (M.drop (64 * (M.length / 64)) ++ closeTail (BitVec.ofNat 29 M.length)).length = 64 := by
    rw [List.length_append, List.length_drop]; omega
  have hfirst : hfinal h (M ++ closeTail (BitVec.ofNat 29 M.length)) =
      compress (compressBlocks (M.length / 64) h M)
        (M.drop (64 * (M.length / 64)) ++ closeTail (BitVec.ofNat 29 M.length)) := by
    rw [← hfinal_take, ← hfinal_append_block h hwhole hblock, ← List.append_assoc, List.take_append_drop]
  rw [pad_eq_append_closeTail, closedHash, hfill]
  split
  · rw [List.append_nil, hfirst]
  · rw [hfinal_append_block h (by rw [List.length_append]; omega) (length_secondBlock _), hfirst]

/-- A character of the digest is the character of its hash state (44_formatter.md R190). -/
theorem getD_hexDigits (h : Vector Word 8) (idx : BitVec 6) : (hexDigits h).getD idx.toNat 0#8 = hexAt h idx := by
  rw [hexDigits, List.getD_eq_getElem?_getD, List.getElem?_map, List.getElem?_range idx.isLt, Option.map_some,
    Option.getD_some, BitVec.ofNat_toNat, BitVec.setWidth_eq]

theorem exec_rdhex_of_done {s : State} (hr : Ready s) (hf : s.fsm = .done) (idx : BitVec 6) :
    exec (.rdhex idx) s = .next (respond (hexAt s.h.read idx) s) := by
  change execRdhex idx s = _
  rw [execRdhex, accepting_of_ready hr, if_neg (not_not.mpr hf)]

/-- Settles O43: what FINAL leaves in H after the bytes of a message is the hash of the padded message, and RDHEX reads it. -/
theorem messageDigest : Obligations.MessageDigest := by
  intro s M hr hg
  obtain ⟨t, u, habs, hrun, hclosed⟩ := exists_closed hr hg
  have hhashed := habs.hashed hclosed
  have hh : u.h = Latch.put (hfinal s.params.hInit (pad M)) := by rw [hhashed.h, hfinal_pad]
  have hready : Ready u := ⟨hclosed.live.trans habs.live, by rw [hhashed.fsm]; decide⟩
  refine ⟨u, hrun, hhashed.fsm, hh, hhashed.len, hhashed.errs, fun idx => ?_⟩
  rw [exec_rdhex_of_done hready hhashed.fsm, hh, Latch.read_put, digest, getD_hexDigits]

end Sys2Proof.Machine
end

section
/-! Proofs of the round-constant family: the words of the ROM are the floors of 2^32 * |sin(t + 1)| (41_round_constants.md R131,
R132). The sine of a whole number n is the imaginary part of (e^i)^n. The Taylor polynomial of e^i is a Gaussian integer over 19!,
so its powers are computed in whole numbers, and what they are off by is far below the margins of R132. -/

namespace Sys2Proof.Machine

/-! ## Powers of two numbers of the unit disc -/

theorem norm_pow_sub_pow_le_mul {z w : ℂ} (hz : ‖z‖ ≤ 1) (hw : ‖w‖ ≤ 1) (n : ℕ) : ‖z ^ n - w ^ n‖ ≤ n * ‖z - w‖ := by
  induction n with
  | zero => simp
  | succ n ih =>
    calc ‖z ^ (n + 1) - w ^ (n + 1)‖ = ‖z * (z ^ n - w ^ n) + (z - w) * w ^ n‖ := by ring_nf
      _ ≤ ‖z‖ * ‖z ^ n - w ^ n‖ + ‖z - w‖ * ‖w‖ ^ n := by
        rw [← norm_mul, ← norm_pow, ← norm_mul]; exact norm_add_le _ _
      _ ≤ 1 * (n * ‖z - w‖) + ‖z - w‖ * 1 := by gcongr; exact pow_le_one₀ (norm_nonneg w) hw
      _ = (n + 1 : ℕ) * ‖z - w‖ := by push_cast; ring

/-! ## The Taylor polynomial of e^i -/

/-- The common denominator of the first twenty terms of the Taylor series of e^i, which is 19!. -/
def expIDenom : ℕ := 121645100408832000

/-- The sum of the first twenty terms of the Taylor series of e^i, times their common denominator. -/
def expINum : GaussianInt := ⟨65725128248453315, 102360822438075317⟩

theorem expIDenom_pos : 0 < expIDenom := by decide

/-- The rational Gaussian number that stands for e^i. -/
noncomputable def expIApprox : ℂ := GaussianInt.toComplex expINum / expIDenom

theorem expIApprox_eq_sum : expIApprox = ∑ m ∈ Finset.range 20, Complex.I ^ m / m.factorial := by
  rw [expIApprox, expINum, expIDenom, GaussianInt.toComplex_def']
  apply Complex.ext <;> norm_num [Finset.sum_range_succ, Complex.I_pow_eq_pow_mod, pow_succ, Nat.factorial]

theorem norm_exp_I_sub_expIApprox_le : ‖Complex.exp Complex.I - expIApprox‖ ≤ 1 / expIDenom := by
  have hbound := Complex.exp_bound Complex.norm_I.le (n := 20) (by decide)
  rw [← expIApprox_eq_sum, Complex.norm_I] at hbound
  refine hbound.trans ?_
  norm_num [Nat.factorial, expIDenom]

theorem norm_expIApprox_le_one : ‖expIApprox‖ ≤ 1 := by
  rw [← sq_le_one_iff₀ (norm_nonneg _), Complex.sq_norm, expIApprox, expINum, expIDenom, Complex.normSq_div,
    GaussianInt.toComplex_def₂, Complex.normSq_mk, Complex.normSq_natCast]
  norm_num

/-! ## The sine of a whole number -/

theorem exp_I_pow_im (n : ℕ) : (Complex.exp Complex.I ^ n).im = Real.sin n := by
  rw [← Complex.exp_nat_mul, ← Complex.ofReal_natCast, Complex.exp_ofReal_mul_I_im]

theorem expIApprox_pow_im (n : ℕ) : (expIApprox ^ n).im = (expINum ^ n).im / (expIDenom : ℝ) ^ n := by
  rw [expIApprox, div_pow, ← map_pow, ← Nat.cast_pow, Complex.div_natCast_im, ← GaussianInt.intCast_im, Nat.cast_pow]

theorem abs_sin_sub_expINum_le (n : ℕ) :
    |Real.sin n - (expINum ^ n).im / (expIDenom : ℝ) ^ n| ≤ n / expIDenom := by
  calc |Real.sin n - (expINum ^ n).im / (expIDenom : ℝ) ^ n|
      = |(Complex.exp Complex.I ^ n - expIApprox ^ n).im| := by rw [Complex.sub_im, exp_I_pow_im, expIApprox_pow_im]
    _ ≤ ‖Complex.exp Complex.I ^ n - expIApprox ^ n‖ := Complex.abs_im_le_norm _
    _ ≤ n * ‖Complex.exp Complex.I - expIApprox‖ :=
      norm_pow_sub_pow_le_mul (by simp [Complex.norm_exp]) norm_expIApprox_le_one n
    _ ≤ n * (1 / expIDenom) := by gcongr; exact norm_exp_I_sub_expIApprox_le
    _ = n / expIDenom := by ring

/-! ## The words of the ROM -/

/-- 2^32 times the numerator of the approximate |sin n|, over the denominator `expIDenom ^ n`. -/
def sineNum (n : ℕ) : ℕ := 2 ^ 32 * (expINum ^ n).im.natAbs

/-- What `sineNum n` can be off by, over the same denominator. -/
def sineError (n : ℕ) : ℕ := 2 ^ 32 * n * expIDenom ^ (n - 1)

theorem abs_sin_sub_sineNum_le {n : ℕ} (hn : 0 < n) :
    |2 ^ 32 * |Real.sin n| * (expIDenom : ℝ) ^ n - (sineNum n : ℝ)| ≤ (sineError n : ℝ) := by
  have hD : (0 : ℝ) < expIDenom := by exact_mod_cast expIDenom_pos
  have hnum : (sineNum n : ℝ) = 2 ^ 32 * |(expINum ^ n).im / (expIDenom : ℝ) ^ n| * expIDenom ^ n := by
    rw [sineNum, abs_div, abs_of_pos (pow_pos hD n), mul_assoc, div_mul_cancel₀ _ (pow_pos hD n).ne']
    norm_num [Nat.cast_natAbs]
  have herr : (sineError n : ℝ) = 2 ^ 32 * (n / expIDenom) * expIDenom ^ n := by
    rw [sineError, ← pow_sub_one_mul hn.ne' (expIDenom : ℝ)]
    push_cast
    field_simp
    norm_num
  rw [hnum, herr, ← sub_mul, ← mul_sub, abs_mul, abs_mul, abs_of_pos (pow_pos hD n), abs_of_pos (pow_pos two_pos 32)]
  gcongr
  exact (abs_abs_sub_abs_le _ _).trans (abs_sin_sub_expINum_le n)

/-- A whole number is the floor of 2^32 * |sin n| when the approximation lies between it and the next one and
keeps the distance `sineError n` from both. -/
theorem floor_sin_eq {k n : ℕ} (hn : 0 < n) (hlow : k * expIDenom ^ n + sineError n ≤ sineNum n)
    (hhigh : sineNum n + sineError n < (k + 1) * expIDenom ^ n) : ⌊(2 : ℝ) ^ 32 * |Real.sin n|⌋ = k := by
  have hD : (0 : ℝ) < (expIDenom : ℝ) ^ n := pow_pos (by exact_mod_cast expIDenom_pos) n
  obtain ⟨hbelow, habove⟩ := abs_le.mp (abs_sin_sub_sineNum_le hn)
  have hlow' : (k : ℝ) * expIDenom ^ n + sineError n ≤ sineNum n := by exact_mod_cast hlow
  have hhigh' : (sineNum n : ℝ) + sineError n < (k + 1) * expIDenom ^ n := by exact_mod_cast hhigh
  rw [Int.floor_eq_iff, Int.cast_natCast]
  constructor
  · exact le_of_mul_le_mul_right (by linarith) hD
  · exact lt_of_mul_lt_mul_right (by linarith) hD.le

/-- The third computation of R132 in whole numbers, row by row: the approximation lies between `K[t]` and `K[t] + 1`, further from
both than it can be off. -/
theorem rom_keeps_margin (t : BitVec 6) :
    (Rom.k t).toNat * expIDenom ^ (t.toNat + 1) + sineError (t.toNat + 1) ≤ sineNum (t.toNat + 1) ∧
    sineNum (t.toNat + 1) + sineError (t.toNat + 1) < ((Rom.k t).toNat + 1) * expIDenom ^ (t.toNat + 1) := by
  revert t
  decide +kernel

/-- Settles O54: the powers of the Taylor polynomial of e^i place every 2^32 * |sin(t + 1)| between `K[t]` and `K[t] + 1`. -/
theorem roundConstantsAreSine : Obligations.RoundConstantsAreSine := by
  intro t
  obtain ⟨hlow, hhigh⟩ := rom_keeps_margin t
  rw [← Nat.cast_succ, floor_sin_eq t.toNat.succ_pos hlow hhigh]

end Sys2Proof.Machine
end

section
/-! Proofs of the schedule family: the bit operations of the message schedule (42_schedule.md R140 to R143). A rotation by less
than a word is the library's `BitVec.rotateRight`; what it does to a single bit gives its other laws. -/

namespace Sys2Proof.Machine

/-! ## ROTR and SHR (42_schedule.md R140, R141) -/

theorem rotr_eq_rotateRight (x : Word) {n : Nat} (hn : n < 32) : rotr x n = x.rotateRight n := by
  rw [rotr, BitVec.rotateRight_def, Nat.mod_eq_of_lt hn]

/-- The right shift gives the bits below `32 - n`, and the left shift those from there on, which have wrapped round. -/
theorem getLsbD_rotr (x : Word) {n i : Nat} (hn : n < 32) (hi : i < 32) :
    (rotr x n).getLsbD i = x.getLsbD ((i + n) % 32) := by
  rw [rotr_eq_rotateRight x hn, BitVec.getLsbD_rotateRight, Nat.mod_eq_of_lt hn]
  by_cases hlow : i < 32 - n
  · have hidx : (i + n) % 32 = n + i := by omega
    rw [decide_eq_true hlow, cond_true, hidx]
  · have hidx : (i + n) % 32 = i - (32 - n) := by omega
    rw [decide_eq_false hlow, cond_false, decide_eq_true hi, Bool.true_and, hidx]

theorem rotr_zero_word (n : Nat) : rotr 0#32 n = 0#32 := by
  rw [rotr, BitVec.zero_ushiftRight, BitVec.zero_shiftLeft, BitVec.or_self]

theorem rotr_allOnes {n : Nat} (hn : n < 32) : rotr (BitVec.allOnes 32) n = BitVec.allOnes 32 := by
  refine BitVec.eq_of_getLsbD_eq fun i hi => ?_
  have hidx : (i + n) % 32 < 32 := Nat.mod_lt _ (by decide)
  simp only [getLsbD_rotr _ hn hi, BitVec.getLsbD_allOnes, hidx, hi]

theorem rotr_xor (x y : Word) {n : Nat} (hn : n < 32) : rotr (x ^^^ y) n = rotr x n ^^^ rotr y n := by
  refine BitVec.eq_of_getLsbD_eq fun i hi => ?_
  simp only [BitVec.getLsbD_xor, getLsbD_rotr _ hn hi]

theorem toNat_shr (x : Word) (n : Nat) : (shr x n).toNat = x.toNat / 2 ^ n := by
  rw [shr, BitVec.toNat_ushiftRight, Nat.shiftRight_eq_div_pow]

theorem getLsbD_shr (x : Word) (n i : Nat) : (shr x n).getLsbD i = x.getLsbD (i + n) := by
  rw [shr, BitVec.getLsbD_ushiftRight, Nat.add_comm]

theorem shr_xor (x y : Word) (n : Nat) : shr (x ^^^ y) n = shr x n ^^^ shr y n :=
  BitVec.ushiftRight_xor_distrib x y n

/-- Settles O48: the bit law of a rotation, the quotient law of a shift, and the examples by evaluation. -/
theorem rotateAndShift : Obligations.RotateAndShift := by
  refine ⟨fun x n i _ hn hi => getLsbD_rotr x hn hi, toNat_shr, rotr_zero_word, fun n _ hn => rotr_allOnes hn, ?_⟩
  decide

/-! ## s0 and s1 (42_schedule.md R142, R143) -/

theorem getLsbD_rotr_xor_rotr_xor_shr (x : Word) {m n i : Nat} (k : Nat) (hm : m < 32) (hn : n < 32) (hi : i < 32) :
    (rotr x m ^^^ rotr x n ^^^ shr x k).getLsbD i =
      ((x.getLsbD ((i + m) % 32) ^^ x.getLsbD ((i + n) % 32)) ^^ x.getLsbD (i + k)) := by
  rw [BitVec.getLsbD_xor, BitVec.getLsbD_xor, getLsbD_rotr x hm hi, getLsbD_rotr x hn hi, getLsbD_shr]

theorem getLsbD_smallSigma0 (x : Word) {i : Nat} (hi : i < 32) :
    (smallSigma0 x).getLsbD i =
      ((x.getLsbD ((i + 7) % 32) ^^ x.getLsbD ((i + 18) % 32)) ^^ x.getLsbD (i + 3)) :=
  getLsbD_rotr_xor_rotr_xor_shr x 3 (by decide) (by decide) hi

theorem getLsbD_smallSigma1 (x : Word) {i : Nat} (hi : i < 32) :
    (smallSigma1 x).getLsbD i =
      ((x.getLsbD ((i + 17) % 32) ^^ x.getLsbD ((i + 19) % 32)) ^^ x.getLsbD (i + 10)) :=
  getLsbD_rotr_xor_rotr_xor_shr x 10 (by decide) (by decide) hi

/-- Two rotations and a shift are each XOR-linear, so their XOR is. -/
theorem rotr_xor_rotr_xor_shr_of_xor (x y : Word) {m n : Nat} (k : Nat) (hm : m < 32) (hn : n < 32) :
    rotr (x ^^^ y) m ^^^ rotr (x ^^^ y) n ^^^ shr (x ^^^ y) k =
      (rotr x m ^^^ rotr x n ^^^ shr x k) ^^^ (rotr y m ^^^ rotr y n ^^^ shr y k) := by
  rw [rotr_xor x y hm, rotr_xor x y hn, shr_xor]
  ac_rfl

theorem smallSigma0_xor (x y : Word) : smallSigma0 (x ^^^ y) = smallSigma0 x ^^^ smallSigma0 y :=
  rotr_xor_rotr_xor_shr_of_xor x y 3 (by decide) (by decide)

theorem smallSigma1_xor (x y : Word) : smallSigma1 (x ^^^ y) = smallSigma1 x ^^^ smallSigma1 y :=
  rotr_xor_rotr_xor_shr_of_xor x y 10 (by decide) (by decide)

/-- Settles O49: the bit laws and the linearity of both functions, and the examples by evaluation. -/
theorem smallSigmas : Obligations.SmallSigmas := by
  refine ⟨fun x i hi => ⟨getLsbD_smallSigma0 x hi, getLsbD_smallSigma1 x hi⟩, smallSigma0_xor, smallSigma1_xor, ?_⟩
  decide

end Sys2Proof.Machine
end

section
/-! Proofs of the compression family: the round functions and the round (43_compression.md R160 to R170). -/

namespace Sys2Proof.Machine

/-! ## S1 and S0 (43_compression.md R160, R161) -/

theorem getLsbD_rotr_xor_rotr_xor_rotr (x : Word) {l m n i : Nat} (hl : l < 32) (hm : m < 32) (hn : n < 32) (hi : i < 32) :
    (rotr x l ^^^ rotr x m ^^^ rotr x n).getLsbD i =
      ((x.getLsbD ((i + l) % 32) ^^ x.getLsbD ((i + m) % 32)) ^^ x.getLsbD ((i + n) % 32)) := by
  rw [BitVec.getLsbD_xor, BitVec.getLsbD_xor, getLsbD_rotr x hl hi, getLsbD_rotr x hm hi, getLsbD_rotr x hn hi]

theorem getLsbD_bigSigma1 (x : Word) {i : Nat} (hi : i < 32) :
    (bigSigma1 x).getLsbD i =
      ((x.getLsbD ((i + 6) % 32) ^^ x.getLsbD ((i + 11) % 32)) ^^ x.getLsbD ((i + 25) % 32)) :=
  getLsbD_rotr_xor_rotr_xor_rotr x (by decide) (by decide) (by decide) hi

theorem getLsbD_bigSigma0 (x : Word) {i : Nat} (hi : i < 32) :
    (bigSigma0 x).getLsbD i =
      ((x.getLsbD ((i + 2) % 32) ^^ x.getLsbD ((i + 13) % 32)) ^^ x.getLsbD ((i + 22) % 32)) :=
  getLsbD_rotr_xor_rotr_xor_rotr x (by decide) (by decide) (by decide) hi

/-- Settles O50: the bit laws of both functions, and the examples by evaluation. -/
theorem bigSigmas : Obligations.BigSigmas := by
  refine ⟨fun x i hi => ⟨getLsbD_bigSigma1 x hi, getLsbD_bigSigma0 x hi⟩, ?_⟩
  decide

/-! ## Ch and Maj (43_compression.md R162, R163) -/

/-- The two terms of Ch are never both 1, and e picks between them. -/
theorem getLsbD_choice (e f g : Word) (i : Nat) :
    (choice e f g).getLsbD i = if e.getLsbD i then f.getLsbD i else g.getLsbD i := by
  rw [choice, BitVec.getLsbD_xor, BitVec.getLsbD_and, BitVec.getLsbD_and, BitVec.getLsbD_not]
  by_cases hi : i < 32
  · cases e.getLsbD i <;> simp [hi]
  · simp [BitVec.getLsbD_of_ge, show 32 ≤ i by omega]

theorem getLsbD_majority (a b c : Word) (i : Nat) :
    (majority a b c).getLsbD i =
      decide (2 ≤ (a.getLsbD i).toNat + (b.getLsbD i).toNat + (c.getLsbD i).toNat) := by
  rw [majority, BitVec.getLsbD_xor, BitVec.getLsbD_xor, BitVec.getLsbD_and, BitVec.getLsbD_and, BitVec.getLsbD_and]
  generalize a.getLsbD i = p, b.getLsbD i = q, c.getLsbD i = r
  revert p q r
  decide

theorem choice_allOnes (f g : Word) : choice (BitVec.allOnes 32) f g = f :=
  BitVec.eq_of_getLsbD_eq fun i hi => by rw [getLsbD_choice, BitVec.getLsbD_allOnes, decide_eq_true hi, if_pos rfl]

theorem choice_zero (f g : Word) : choice 0#32 f g = g :=
  BitVec.eq_of_getLsbD_eq fun i _ => by rw [getLsbD_choice, BitVec.getLsbD_zero, if_neg Bool.false_ne_true]

/-- The choice between two equal words is that word. -/
theorem choice_self (e f : Word) : choice e f f = f :=
  BitVec.eq_of_getLsbD_eq fun i _ => by rw [getLsbD_choice, ite_self]

/-- Two equal words outvote the third. -/
theorem majority_self (x y : Word) : majority x x y = x := by
  rw [majority, BitVec.and_self, BitVec.xor_assoc, BitVec.xor_self, BitVec.xor_zero]

/-- Settles O51: the bit laws give the corner cases, and the examples are evaluated. -/
theorem choiceAndMajority : Obligations.ChoiceAndMajority := by
  refine ⟨getLsbD_choice, getLsbD_majority, fun f g => ⟨choice_allOnes f g, choice_zero f g, choice_self g f⟩,
    majority_self, ?_⟩
  decide

/-! ## The round (43_compression.md R164, R165, R170) -/

/-- A sum in which each addition wraps is the whole sum, wrapped once (43_compression.md R164). -/
theorem toNat_temp1 (k x : Word) (v : Vars) :
    (temp1 k x v).toNat =
      (v.h.toNat + (bigSigma1 v.e).toNat + (choice v.e v.f v.g).toNat + k.toNat + x.toNat) % 2 ^ 32 := by
  simp only [temp1, BitVec.toNat_add, Nat.mod_add_mod]

theorem toNat_temp2 (v : Vars) :
    (temp2 v).toNat = ((bigSigma0 v.a).toNat + (majority v.a v.b v.c).toNat) % 2 ^ 32 :=
  BitVec.toNat_add _ _

/-- Settles O52: T1 and T2 are those of the round, and the examples are evaluated. -/
theorem roundUpdatesVariables : Obligations.RoundUpdatesVariables := by
  refine ⟨fun t x v => ⟨temp1 (Rom.k t) x v, temp2 v, toNat_temp1 _ x v, toNat_temp2 v, rfl⟩, ?_⟩
  decide

end Sys2Proof.Machine
end

section
/-! Proofs of the compression family: the sequencer's steps, the block they compress and the end of every compression
(43_compression.md R171 to R176). -/

namespace Sys2Proof.Machine

/-! ## LOAD, ROUND and FOLD, one step each -/

theorem tick_load {s : State} {bytes : List Byte} (hu : s.seq.sub = .load) (hbytes : s.buf.readBytes 64 0 = some bytes) :
    tick s = .next (loadState bytes s) := by
  rw [tick, hu]
  simp only [seqLoad, hbytes]

theorem tick_round {s : State} (hu : s.seq.sub = .round) : tick s = .next (roundState s) := by
  rw [tick, hu]

theorem tick_fold {s : State} (hu : s.seq.sub = .fold) : tick s = .next (endBlock s) := by
  rw [tick, hu]

/-- LOAD's words of W are the big-endian words of the block (43_compression.md R171). -/
theorem schedRead_load_of_lt {bytes : List Byte} (hlen : bytes.length = 64) (w : Vector (Latch Word) 64) {u : BitVec 6}
    (hu : u.toNat < 16) :
    schedRead (schedWriteWords w 0#6 (wordsOf bytes)) u =
      some (wordBe (bytes.getD (4 * u.toNat) 0#8) (bytes.getD (4 * u.toNat + 1) 0#8) (bytes.getD (4 * u.toNat + 2) 0#8)
        (bytes.getD (4 * u.toNat + 3) 0#8)) := by
  have hwords : (wordsOf bytes).length = 16 := by rw [length_wordsOf, hlen]
  have hzero : (0#6).toNat = 0 := rfl
  rw [schedRead_schedWriteWords _ _ _ _ (by omega), if_pos (by omega), hzero, Nat.sub_zero,
    getElem?_wordsOf_eq_getD (by omega)]

theorem schedRead_load_of_ge {bytes : List Byte} (hlen : bytes.length = 64) (w : Vector (Latch Word) 64) {u : BitVec 6}
    (hu : 16 ≤ u.toNat) :
    schedRead (schedWriteWords w 0#6 (wordsOf bytes)) u = schedRead w u ∧
      schedWord (schedWriteWords w 0#6 (wordsOf bytes)) u = schedWord w u := by
  have hwords : (wordsOf bytes).length = 16 := by rw [length_wordsOf, hlen]
  have hzero : (0#6).toNat = 0 := rfl
  exact ⟨by rw [schedRead_schedWriteWords _ _ _ _ (by omega), if_neg (by omega)],
    schedWord_schedWriteWords_outside _ _ _ _ (by omega) (by omega)⟩

/-- Settles O37: the words of W below 16 are the block's, and the others stay. -/
theorem loadStep : Obligations.LoadStep := by
  intro s bytes hu hbytes
  have hlen : bytes.length = 64 := ((Memory.readBytes_eq_some _ _ _ _).mp hbytes).1
  exact ⟨loadState bytes s, tick_load hu hbytes, rfl, fun _ => schedRead_load_of_lt hlen s.w,
    fun _ => schedRead_load_of_ge hlen s.w, rfl⟩

theorem afterRound_of_ne {q : Seq} (h : q.tcnt ≠ 63#6) : afterRound q = { q with tcnt := q.tcnt + 1#6 } := if_neg h

theorem afterRound_of_eq {q : Seq} (h : q.tcnt = 63#6) : afterRound q = { q with sub := .fold } := if_pos h

/-- A round below 16 leaves W as it is and does not end the block (43_compression.md R172). -/
theorem roundState_of_lt {s : State} (ht : s.seq.tcnt.toNat < 16) :
    roundState s = { s with
      vars := Latch.put (hashRound s.seq.tcnt (schedWord s.w s.seq.tcnt) s.vars.val)
      seq := { s.seq with tcnt := s.seq.tcnt + 1#6 }
      rspValid := false } := by
  have hne : s.seq.tcnt ≠ 63#6 := fun e => absurd (e ▸ ht) (by decide)
  rw [roundState, schedAdvance_of_lt ht, afterRound_of_ne hne]
  rfl

/-- The word the expander computes in round t from 16 on (42_schedule.md R145). -/
def nextWord (w : Vector (Latch Word) 64) (t : BitVec 6) : Word :=
  expandWord (schedWord w (t - 16#6)) (schedWord w (t - 15#6)) (schedWord w (t - 7#6)) (schedWord w (t - 2#6))

/-- A round from 16 on writes `W[t]` and uses it (43_compression.md R172). -/
theorem roundState_of_ge {s : State} (ht : 16 ≤ s.seq.tcnt.toNat) :
    (roundState s).w = schedWrite s.w s.seq.tcnt (nextWord s.w s.seq.tcnt) ∧
      (roundState s).vars = Latch.put (hashRound s.seq.tcnt (nextWord s.w s.seq.tcnt) s.vars.val) := by
  rw [roundState_w, roundState_vars, schedAdvance_of_ge ht, schedWord_schedWrite, if_pos rfl]
  exact ⟨rfl, rfl⟩

/-- Settles O38: by whether the expander has a word to compute in this round. -/
theorem roundStep : Obligations.RoundStep := by
  intro s hu
  refine ⟨fun hlt => by rw [tick_round hu, roundState_of_lt hlt], fun hge => ?_⟩
  obtain ⟨hw, hvars⟩ := roundState_of_ge hge
  refine ⟨roundState s, nextWord s.w s.seq.tcnt, tick_round hu, rfl, ?_, fun u hne => ?_, ?_, afterRound_of_ne,
    afterRound_of_eq, rfl⟩
  · rw [hw, schedRead_schedWrite, if_pos rfl]
  · rw [hw, schedRead_schedWrite, schedWord_schedWrite, if_neg hne, if_neg hne]
    exact ⟨rfl, rfl⟩
  · rw [hvars, Latch.get?_put]

theorem getElem?_secondBlock_of_lt (l : BitVec 29) {a : Nat} (ha : a < 56) : (secondBlock l)[a]? = some 0x00#8 := by
  rw [secondBlock, List.getElem?_append_left (by simpa using ha), List.getElem?_replicate, if_pos ha]

theorem getElem?_secondBlock_add (l : BitVec 29) (i : Nat) : (secondBlock l)[56 + i]? = (lengthFieldOf l)[i]? := by
  rw [secondBlock, List.getElem?_append_right (by simp)]
  simp

/-- The second closing block in BUF: zeros, the length field, and nothing beyond it (40_padder.md R112). -/
theorem read_nextClosingBlock (s : State) :
    (∀ a, a < 56 → (nextClosingBlock s).buf.read a = some 0x00#8) ∧
      (∀ i, i < 8 → (nextClosingBlock s).buf.read (56 + i) = (lengthFieldOf s.len)[i]?) ∧
      ∀ a, 64 ≤ a → (nextClosingBlock s).buf.read a = s.buf.read a := by
  simp only [nextClosingBlock_buf, read_writeBytes_secondBlock]
  refine ⟨fun a ha => ?_, fun i hi => ?_, fun a ha => ?_⟩
  · rw [if_pos (by omega), getElem?_secondBlock_of_lt _ ha]
  · rw [if_pos (by omega), getElem?_secondBlock_add]
  · rw [if_neg (by omega)]

/-- All that FOLD with PEND2 = 1 changes (43_compression.md R173, R174). -/
theorem nextClosingBlock_foldState_eq (s : State) :
    nextClosingBlock (foldState s) = { s with
      h := (nextClosingBlock (foldState s)).h
      w := unwrittenSchedule
      buf := (nextClosingBlock (foldState s)).buf
      seq := { s.seq with pend2 := false, sub := .load }
      rspValid := false } := by
  rw [nextClosingBlock_h, nextClosingBlock_buf]
  rfl

/-- Settles O39: by PEND2. -/
theorem foldStep : Obligations.FoldStep := by
  intro s hu
  refine ⟨endBlock s, tick_fold hu, ?_⟩
  obtain ⟨hp, hend⟩ | ⟨hp, hend⟩ := endBlock_cases s
  · obtain ⟨hzeros, hfield, houtside⟩ := read_nextClosingBlock (foldState s)
    rw [hend]
    exact ⟨rfl, fun _ => ⟨hzeros, hfield, houtside, nextClosingBlock_foldState_eq s⟩,
      fun hp' => nomatch hp.symm.trans hp'⟩
  · rw [hend]
    exact ⟨rfl, fun hp' => (nomatch hp.symm.trans hp'), fun _ => rfl⟩

/-! ## One block -/

/-- Settles O40: 66 steps compress the block in BUF and end the command or begin the second closing block; the two values are
evaluated. -/
theorem sequencerComputesCompress : Obligations.SequencerComputesCompress := by
  refine ⟨fun s block hb hu hbytes => ?_, by decide +kernel, by decide +kernel⟩
  have hblock : AtBlock block s := ⟨hb, hu, hbytes⟩
  cases hp : s.seq.pend2 with
  | false =>
    exact ⟨finishCommand (compressed block s), drain_lastBlock hblock hp 0, rfl, rfl, rfl, rfl, rfl, rfl, rfl, hp,
      fun _ => ⟨rfl, rfl, finishCommand_rsp_statusWord _, rfl⟩, fun hp' => nomatch hp'⟩
  | true =>
    have hsecond : AtBlock (secondBlock s.len) (nextClosingBlock (compressed block s)) :=
      atBlock_nextClosingBlock (s := compressed block s) hb
    exact ⟨nextClosingBlock (compressed block s), drain_firstBlock hblock hp 0, rfl, rfl, rfl, rfl, rfl, rfl, rfl, rfl,
      fun hp' => (nomatch hp'), fun _ => ⟨hb, rfl, hsecond.bytes, rfl⟩⟩

/-! ## Every compression ends -/

/-- The sequencer's steps from one of its states to the end of the command (43_compression.md R175): the rest of the block, and
with PEND2 a second block of 66 steps. -/
def stepsLeft (q : Seq) : Nat :=
  (match q.sub with
    | .load => 66
    | .round => 65 - q.tcnt.toNat
    | .fold => 1) + if q.pend2 then 66 else 0

theorem stepsLeft_pos (q : Seq) : 0 < stepsLeft q := by
  have hlt := q.tcnt.isLt
  unfold stepsLeft
  split <;> omega

theorem stepsLeft_le (q : Seq) : stepsLeft q ≤ maxBusySteps := by
  unfold stepsLeft maxBusySteps
  split <;> split <;> omega

/-- LOAD is one step less. -/
theorem stepsLeft_load {q : Seq} (hu : q.sub = .load) :
    stepsLeft { q with sub := .round, tcnt := 0#6 } + 1 = stepsLeft q := by
  simp only [stepsLeft, hu, BitVec.toNat_ofNat]
  omega

/-- A round is one step less, the last one before FOLD too. -/
theorem stepsLeft_afterRound {q : Seq} (hu : q.sub = .round) : stepsLeft (afterRound q) + 1 = stepsLeft q := by
  obtain ⟨hlt, hround, hnext⟩ | ⟨hlast, hfold⟩ := afterRound_cases hu
  · simp only [stepsLeft, hu, hround, hnext, afterRound_pend2]
    omega
  · simp only [stepsLeft, hu, hfold, hlast, afterRound_pend2]
    omega

/-- The FOLD of the first of two blocks is one step less. -/
theorem stepsLeft_nextBlock {q : Seq} (hu : q.sub = .fold) (hp : q.pend2 = true) :
    stepsLeft { q with pend2 := false, sub := .load } + 1 = stepsLeft q := by
  rw [stepsLeft, stepsLeft, hu, hp]
  rfl

/-- `t` follows `s` in BUSY, one step nearer to the end of the same command. -/
structure OneStepLess (s t : State) : Prop where
  busy : t.fsm = .busy
  sound : Sound t
  ret : t.seq.ret = s.seq.ret
  left : stepsLeft t.seq + 1 = stepsLeft s.seq

/-- A sequencer step of a sound state ends the command or is one step towards that. -/
theorem tick_of_sound {s : State} (h : Sound s) (hb : s.fsm = .busy) :
    ∃ t, tick s = .next t ∧ (t.fsm = s.seq.ret.fsm ∨ OneStepLess s t) := by
  cases hu : s.seq.sub with
  | load =>
    obtain ⟨bytes, hbytes⟩ := (h.load_buf hb hu).exists_readBytes
    exact ⟨_, tick_load hu hbytes, .inr
      { busy := hb, sound := sound_loadState h hb hbytes, ret := rfl, left := stepsLeft_load hu }⟩
  | round =>
    exact ⟨_, tick_round hu, .inr
      { busy := hb, sound := sound_roundState h hb hu, ret := afterRound_ret _, left := stepsLeft_afterRound hu }⟩
  | fold =>
    refine ⟨endBlock s, tick_fold hu, ?_⟩
    obtain ⟨hp, hend⟩ | ⟨hp, hend⟩ := endBlock_cases s
    · rw [hend]
      exact .inr
        { busy := hb, sound := sound_nextClosingBlock (sound_foldState h hu) hb hp, ret := rfl,
          left := stepsLeft_nextBlock hu hp }
    · rw [hend]
      exact .inl rfl

/-- Draining a sound BUSY state for at least the steps it has left ends in RET. -/
theorem drain_of_stepsLeft_le (n : Nat) {s : State} (h : Sound s) (hb : s.fsm = .busy) (hle : stepsLeft s.seq ≤ n) :
    ∃ t, drain n s = .next t ∧ t.fsm = s.seq.ret.fsm := by
  induction n generalizing s with
  | zero => exact absurd (stepsLeft_pos s.seq) (by omega)
  | succ n ih =>
    obtain ⟨t, htick, hret | hless⟩ := tick_of_sound h hb
    · have hnb : t.fsm ≠ .busy := hret ▸ s.seq.ret.fsm_ne_busy
      exact ⟨t, by rw [drain_busy hb htick, drain_not_busy hnb], hret⟩
    · obtain ⟨hb', hsound, hret, hleft⟩ := hless
      rw [drain_busy hb htick, ← hret]
      exact ih hsound hb' (by omega)

/-- Settles O36: no sequencer state has more than 132 steps left. -/
theorem busyEnds : Obligations.BusyEnds := by
  intro s h hb
  obtain ⟨t, hdrain, hret⟩ := drain_of_stepsLeft_le maxBusySteps h hb (stepsLeft_le s.seq)
  exact ⟨t, hdrain, hret, hret ▸ s.seq.ret.fsm_ne_busy⟩

end Sys2Proof.Machine
end

section
/-! Proofs of the formatter family: the hex rendering of a hash state and RDHEX (44_formatter.md R190 to R193). Character i of the
rendering is a digit of one word, and the eight digits of a word determine it. -/

namespace Sys2Proof.Machine

/-! ## The digits of a word (44_formatter.md R190) -/

theorem toNat_nibble (x : Word) (p : BitVec 3) : (nibble x p).toNat = x.toNat / 16 ^ (7 - p.toNat) % 16 := by
  have hshift : 2 ^ (28 - 4 * p.toNat) = 16 ^ (7 - p.toNat) := by
    rw [show 28 - 4 * p.toNat = 4 * (7 - p.toNat) by omega, Nat.pow_mul]
  rw [nibble, BitVec.extractLsb'_toNat, Nat.shiftRight_eq_div_pow, hshift]

theorem getLsbD_nibble (x : Word) (p : BitVec 3) {i : Nat} (hi : i < 4) :
    (nibble x p).getLsbD i = x.getLsbD (28 - 4 * p.toNat + i) := by
  rw [nibble, BitVec.getLsbD_extractLsb', decide_eq_true hi, Bool.true_and]

/-- Bit i of a word is bit i mod 4 of the digit i div 4 from the right. -/
theorem eq_of_nibble_eq {x y : Word} (h : ∀ p, nibble x p = nibble y p) : x = y := by
  refine BitVec.eq_of_getLsbD_eq fun i hi => ?_
  have hp : (BitVec.ofNat 3 (7 - i / 4)).toNat = 7 - i / 4 := by
    rw [BitVec.toNat_ofNat, Nat.mod_eq_of_lt (by omega)]
  have hbit : 28 - 4 * (BitVec.ofNat 3 (7 - i / 4)).toNat + i % 4 = i := by rw [hp]; omega
  have hi4 : i % 4 < 4 := Nat.mod_lt i (by decide)
  rw [← hbit, ← getLsbD_nibble x _ hi4, h, getLsbD_nibble y _ hi4]

/-! ## The character of a digit (44_formatter.md R191) -/

theorem hexchar_eq_ofNat (n : BitVec 4) :
    hexchar n = BitVec.ofNat 8 (if n.toNat < 10 then 0x30 + n.toNat else 0x57 + n.toNat) := by
  unfold hexchar
  split <;> rw [BitVec.ofNat_add, BitVec.ofNat_toNat]

theorem hexchar_range (n : BitVec 4) :
    (0x30 ≤ (hexchar n).toNat ∧ (hexchar n).toNat ≤ 0x39) ∨ (0x61 ≤ (hexchar n).toNat ∧ (hexchar n).toNat ≤ 0x66) := by
  revert n; decide

theorem hexchar_injective : Function.Injective hexchar := by decide

/-! ## The characters of a hash state (44_formatter.md R190) -/

theorem toNat_wordIndex_ofNat {i : Nat} (hi : i < 64) : (wordIndex (BitVec.ofNat 6 i)).toNat = i / 8 := by
  rw [wordIndex, BitVec.extractLsb'_toNat, BitVec.toNat_ofNat, Nat.shiftRight_eq_div_pow]
  omega

theorem toNat_digitIndex_ofNat (i : Nat) : (digitIndex (BitVec.ofNat 6 i)).toNat = i % 8 := by
  rw [digitIndex, BitVec.extractLsb'_toNat, BitVec.toNat_ofNat, Nat.shiftRight_zero]
  omega

theorem wordIndex_append (j p : BitVec 3) : wordIndex (j ++ p) = j := BitVec.extractLsb'_append_eq_left

theorem digitIndex_append (j p : BitVec 3) : digitIndex (j ++ p) = p := BitVec.extractLsb'_append_eq_right

theorem hexAt_ofNat (h : Vector Word 8) {i : Nat} (hi : i < 64) :
    hexAt h (BitVec.ofNat 6 i) = hexchar (nibble (h[i / 8]'(by omega)) (digitIndex (BitVec.ofNat 6 i))) := by
  simp only [hexAt, toNat_wordIndex_ofNat hi]

theorem hexAt_append (h : Vector Word 8) (j p : BitVec 3) :
    hexAt h (j ++ p) = hexchar (nibble (h[j.toNat]'j.isLt) p) := by
  simp only [hexAt, wordIndex_append, digitIndex_append]

/-! ## The rendering (44_formatter.md R190, R193) -/

theorem length_hexDigits (h : Vector Word 8) : (hexDigits h).length = 64 := by
  rw [hexDigits, List.length_map, List.length_range]

theorem getElem?_hexDigits (h : Vector Word 8) {i : Nat} (hi : i < 64) :
    (hexDigits h)[i]? = some (hexAt h (BitVec.ofNat 6 i)) := by
  rw [hexDigits, List.getElem?_map, List.getElem?_range hi, Option.map_some]

theorem exists_hexchar_of_mem_hexDigits {h : Vector Word 8} {b : Byte} (hb : b ∈ hexDigits h) : ∃ n, hexchar n = b := by
  obtain ⟨i, -, hi⟩ := List.mem_map.mp hb
  exact ⟨_, hi⟩

/-- Equal renderings have equal digits, and the digits of a word determine it. -/
theorem hexDigits_injective : Function.Injective hexDigits := by
  intro h₁ h₂ heq
  refine Vector.ext fun j hj => eq_of_nibble_eq fun p => hexchar_injective ?_
  have hchar : hexAt h₁ (BitVec.ofNatLT j hj ++ p) = hexAt h₂ (BitVec.ofNatLT j hj ++ p) := by
    rw [← getD_hexDigits, heq, getD_hexDigits]
  rwa [hexAt_append, hexAt_append] at hchar

/-- Settles O55: the digit of each character and its code; the examples are evaluated. -/
theorem hexRendering : Obligations.HexRendering := by
  refine ⟨fun h i hi => ⟨_, rfl, ?_⟩, length_hexDigits, by decide, by decide⟩
  rw [getElem?_hexDigits h hi, hexAt_ofNat h hi, hexchar_eq_ofNat, toNat_nibble, toNat_digitIndex_ofNat]

/-- Settles O56: each character is that of a digit, and the characters determine the state. -/
theorem hexIsInjective : Obligations.HexIsInjective := by
  refine ⟨length_hexDigits, fun h b hb => ?_, fun _ _ => @hexDigits_injective _ _⟩
  obtain ⟨n, rfl⟩ := exists_hexchar_of_mem_hexDigits hb
  exact hexchar_range n

/-! ## RDHEX (44_formatter.md R192) -/

theorem eq_rdhex_of_tableMatch {i : Instr} (h : tableMatch i = 0x00000004#32) : ∃ idx, i = .rdhex idx := by
  cases i with
  | rdhex idx => exact ⟨idx, rfl⟩
  | nop | init | push | final | clrerr => exact absurd h (by simp only [tableMatch]; decide)

/-- The words of RDHEX are those of its row of the opcode table, with the index they hold (30_encoding.md R72, R73). -/
theorem decode_eq_rdhex_iff (w : Word) (idx : BitVec 6) :
    decode w = .cmd (.rdhex idx) ↔ w &&& 0xFFFFC0FF#32 = 0x00000004#32 ∧ idx = idxOf w := by
  have hrow := mask_match_iff w (.rdhex idx)
  constructor
  · intro hd
    exact ⟨hrow.mpr ⟨_, hd, rfl⟩, (idxOf_of_decode_rdhex hd).symm⟩
  · rintro ⟨hw, rfl⟩
    obtain ⟨i, hd, hmatch⟩ := hrow.mp hw
    obtain ⟨idx, rfl⟩ := eq_rdhex_of_tableMatch hmatch
    rw [hd, idxOf_of_decode_rdhex hd]

theorem exec_rdhex_outside_done {s : State} (hr : Ready s) (hf : s.fsm ≠ .done) (idx : BitVec 6) :
    exec (.rdhex idx) s = commandError .seq s := by
  change execRdhex idx s = _
  rw [execRdhex, accepting_of_ready hr, if_pos hf]

/-- A later response replaces an earlier one: the status it samples does not show RSP (30_encoding.md R80, R82). -/
theorem respond_respond (c d : Byte) (s : State) : respond d (respond c s) = respond d s := rfl

theorem acceptWord_rdhex_reserved {s : State} {w : Word} (hr : Ready s) (hopc : opcOf w = 0x4#4)
    (hz : w &&& 0xFFFFC0F0#32 ≠ 0#32) : acceptWord w s = commandError .rsvdBits s := by
  refine acceptWord_of_reserved hr (decode_of_reserved ?_ ?_) <;> rw [hopc]
  · decide
  · exact hz

theorem fsm_eq_done_of_statusWord {s : State} (h : statusWord s = 0x0003#16) : s.fsm = .done := by
  have hcode : s.fsm.code = 3#3 := by rw [← statusWord_fsm, h]; rfl
  cases hf : s.fsm with
  | done => rfl
  | idle | absorb | busy => rw [hf] at hcode; exact absurd hcode (by decide)

/-- Under the status 3 of DONE without errors, RDHEX responds with that status and the character. -/
theorem exec_rdhex_rsp {s : State} (hr : Ready s) (hstatus : statusWord s = 0x0003#16) (idx : BitVec 6) :
    ∃ t, exec (.rdhex idx) s = .next t ∧ t.rsp = responseWord 0x0003#16 (hexAt s.h.val idx) :=
  ⟨_, exec_rdhex_of_done hr (fsm_eq_done_of_statusWord hstatus) idx, by rw [respond_rsp, hstatus, Latch.read]⟩

/-- Settles O18: the row of RDHEX, its outcome by FSM, and its two example characters, which are digits of the first word. -/
theorem rdhexRule : Obligations.RdhexRule := by
  refine ⟨decode_eq_rdhex_iff, fun s idx hr hf => exec_rdhex_outside_done hr hf idx, fun s idx hr hf => ?_,
    fun s w => acceptWord_rdhex_reserved, fun s hr hword hstatus => ?_⟩
  · refine ⟨exec_rdhex_of_done hr hf idx, ?_⟩
    rw [exec_rdhex_of_done (s := respond _ s) hr hf, respond_respond, respond_h, Latch.read]
  · have hchar (p : BitVec 3) : hexAt s.h.val (0#3 ++ p) = hexchar (nibble 0xF19564CD#32 p) := by
      rw [hexAt_append, ← hword]; rfl
    obtain ⟨t, ht, hrsp⟩ := exec_rdhex_rsp hr hstatus (0#3 ++ 0#3)
    obtain ⟨u, hu, husp⟩ := exec_rdhex_rsp hr hstatus (0#3 ++ 7#3)
    rw [hchar] at hrsp husp
    exact ⟨⟨t, ht, hrsp⟩, u, hu, husp⟩

end Sys2Proof.Machine
end

section
/-! Proofs of the control family: NOP, INIT and CLRERR (45_control.md R200 to R204). Each is one fixed word, runs in every
FSM state but BUSY, and responds with the status it leaves. -/

namespace Sys2Proof.Machine

/-! ## The words of a command without an argument -/

theorem decode_eq_cmd_iff (w : Word) (i : Instr) : decode w = .cmd i ↔ w = encode i :=
  ⟨eq_encode_of_decode, fun h => h ▸ decode_encode i⟩

/-- A command whose row of the opcode table leaves no bit free has one word; every other word with its opcode is reserved
(30_encoding.md R73). -/
theorem decode_eq_reserved_of_opcOf {w : Word} {i : Instr} (hmask : tableMask i = BitVec.allOnes 32)
    (hopc : opcOf w = opcOf (encode i)) (hne : w ≠ tableMatch i) : decode w = .reserved := by
  have h6 : (opcOf w).toNat < 6 := hopc ▸ (tableRow_of_instr i).2
  obtain ⟨hill, -⟩ | ⟨-, -, hd⟩ | ⟨-, -, j, rfl, hd⟩ := decode_cases w
  · exact absurd h6 (Nat.not_lt.mpr hill)
  · exact hd
  · have hmatch : tableMatch j = tableMatch i := by rw [tableMatch_eq_setWidth, hopc, ← tableMatch_eq_setWidth]
    have hrow : encode j &&& tableMask i = tableMatch i := (mask_match_iff _ i).mpr ⟨j, hd, hmatch⟩
    rw [hmask, BitVec.and_allOnes] at hrow
    exact absurd hrow hne

theorem acceptWord_rsvdBits_of_opcOf {s : State} {w : Word} {i : Instr} (hr : Ready s)
    (hmask : tableMask i = BitVec.allOnes 32) (hopc : opcOf w = opcOf (encode i)) (hne : w ≠ tableMatch i) : acceptWord w s = commandError .rsvdBits s :=
  acceptWord_of_reserved hr (decode_eq_reserved_of_opcOf hmask hopc hne)

/-! ## The status of a core without an error -/

theorem ready_resetOf (p : Params) : Ready (State.resetOf p) := ⟨rfl, by simp⟩

/-- With the guard off and no error recorded the status word is the FSM code alone (30_encoding.md R82). -/
theorem statusWord_of_clear {s : State} (hg : s.params.lenGuard = false) (he : s.errs = ErrRec.clear) :
    statusWord s = s.fsm.code.setWidth 16 := by
  rw [statusWord, hg, he]
  cases s.fsm <;> rfl

/-- The error fields of a sound state without an error are those that CLRERR leaves (30_encoding.md R82). -/
theorem Sound.errs_eq_clear {s : State} (h : Sound s) (he : s.errs.err = false) : s.errs = ErrRec.clear := by
  obtain ⟨hcause, heovf⟩ := h.err_clear he
  calc s.errs = ⟨s.errs.err, s.errs.ecode, s.errs.eovf⟩ := rfl
    _ = ErrRec.clear := by rw [he, hcause, heovf]; rfl

/-! ## NOP (45_control.md R200) -/

theorem exec_nop_of_ready {s : State} (hr : Ready s) : exec .nop s = .next (respond 0x00#8 s) := accepting_of_ready hr

/-- While BUSY a sent word stays presented, whatever the host does after it (70_reset_and_hazards.md R260, R261). -/
theorem step_send_of_busy {s : State} {w : Word} {rest : List HostAct} (hlive : s.live = true) (hb : s.fsm = .busy)
    (hh : s.host = .send w :: rest) : step s = tick s := by
  have hact : afterAct s = s := by
    rw [afterAct_send hh, if_neg (mt (cmdReady_iff s).mp fun hr => hr.2 hb)]
  have hedge : step s = clockEdge (Pins.command w) s := by simp [step, hostEdge, actRefusal, pinsAt, hh, hact]
  rw [hedge, clockEdge_of_busy rfl hlive hb]

/-- Settles O15: NOP's word and its outcome on a ready core and right after reset, and the held word while BUSY. -/
theorem nopRule : Obligations.NopRule := by
  refine ⟨fun w => decode_eq_cmd_iff w .nop, fun _ => exec_nop_of_ready, fun s w hr hopc hne => ?_, fun p hg => ?_,
    fun s rest hlive hb => step_send_of_busy hlive hb rfl⟩
  · exact acceptWord_rsvdBits_of_opcOf (i := .nop) hr rfl hopc hne
  · have hstat : statusWord (State.resetOf p) = 0x0000#16 := statusWord_of_clear hg rfl
    rw [exec_nop_of_ready (ready_resetOf p), respond, hstat]
    rfl

/-! ## INIT (45_control.md R202) -/

theorem eq_of_exec_init {s t : State} (hr : Ready s) (h : exec .init s = .next t) :
    t = respond 0x00#8 (initMessage s) :=
  Host.Outcome.next.inj (h.symm.trans (exec_init_of_ready hr))

/-- INIT writes the same message state over its own, and the status it samples is the same (45_control.md R202). -/
theorem respond_initMessage_idem (d : Byte) (s : State) :
    respond d (initMessage (respond d (initMessage s))) = respond d (initMessage s) := rfl

/-- Settles O16: INIT's word and outcome, and what INIT, RDHEX and the status find in the ABSORB state it leaves. -/
theorem initRule : Obligations.InitRule := by
  refine ⟨fun w => decode_eq_cmd_iff w .init, fun _ => exec_init_of_ready, fun s t hr h => ?_, fun s t idx hr h => ?_,
    fun p hg => ?_⟩
  · rw [eq_of_exec_init hr h, exec_init_of_ready (absorbed_init hr).ready, respond_initMessage_idem]
  · rw [eq_of_exec_init hr h]
    exact exec_rdhex_outside_done (absorbed_init hr).ready (by simp) idx
  · have hstat : statusWord (initMessage (State.resetOf p)) = 0x0001#16 := statusWord_of_clear hg rfl
    exact ⟨_, exec_init_of_ready (ready_resetOf p), rfl, rfl, by rw [respond_rsp, hstat]; rfl⟩

/-! ## CLRERR (45_control.md R204) -/

theorem exec_clrerr_of_ready {s : State} (hr : Ready s) :
    exec .clrerr s = .next (respond 0x00#8 { s with errs := ErrRec.clear }) :=
  accepting_of_ready hr

/-- With the guard off CLRERR leaves the FSM field of the status word and nothing else of it (30_encoding.md R82). -/
theorem statusWord_clearErrs {s : State} (hg : (statusWord s).getLsbD 9 = false) :
    statusWord { s with errs := ErrRec.clear } = ((statusWord s).extractLsb' 0 3).setWidth 16 := by
  rw [statusWord_lguard] at hg
  rw [statusWord_fsm]
  exact statusWord_of_clear hg rfl

/-- Settles O17: CLRERR's word and outcome, a record already clear, and the example status with its error fields gone. -/
theorem clrerrRule : Obligations.ClrerrRule := by
  refine ⟨fun w => decode_eq_cmd_iff w .clrerr, fun _ => exec_clrerr_of_ready, fun s w hr hopc hne => ?_,
    fun s hr hs he => ?_, fun s hr hstat => ?_⟩
  · exact acceptWord_rsvdBits_of_opcOf (i := .clrerr) hr rfl hopc hne
  · exact ⟨_, exec_clrerr_of_ready hr, (hs.errs_eq_clear he).symm⟩
  · have hclear : statusWord { s with errs := ErrRec.clear } = 0x0001#16 := by
      rw [statusWord_clearErrs (by rw [hstat]; rfl), hstat]
      rfl
    exact ⟨_, exec_clrerr_of_ready hr, by rw [respond_rsp, hclear]; rfl⟩

end Sys2Proof.Machine
end

section
/-! Proofs of the exceptions family: which check gives a command its error, which commands each FSM state accepts, and what an
edge does to the error record (60_exceptions.md R222 to R226). -/

namespace Sys2Proof.Machine

/-! ## The outcome of a command by its legality -/

theorem acceptWord_of_illegal {s : State} {w : Word} (hr : Ready s) (hd : decode w = .illegal) :
    acceptWord w s = commandError .illegalOpc s := by
  rw [acceptWord, accepting_of_ready hr, hd]

/-- A command outside the states of its row of R222's table raises SEQ. -/
theorem exec_of_not_legal {s : State} {i : Instr} (hr : Ready s) (h : legalIn i s.fsm = false) :
    exec i s = commandError .seq s := by
  cases i with
  | nop | init | clrerr => cases h
  | push b => exact exec_push_outside_absorb hr (of_decide_eq_false h) b
  | final => exact exec_final_outside_absorb hr (of_decide_eq_false h)
  | rdhex idx => exact exec_rdhex_outside_done hr (of_decide_eq_false h) idx

/-- A legal command that the guard admits completes, and of these only CLRERR writes the error record (60_exceptions.md R223). -/
theorem exec_of_legal {s : State} {i : Instr} (hr : Ready s) (h : legalIn i s.fsm = true)
    (hg : ∀ b, i = .push b → s.params.lenGuard = false ∨ s.len ≠ lastLen) :
    ∃ t, exec i s = .next t ∧ t.errs = if i = .clrerr then ErrRec.clear else s.errs := by
  cases i with
  | nop => exact ⟨_, exec_nop_of_ready hr, rfl⟩
  | init => exact ⟨_, exec_init_of_ready hr, rfl⟩
  | push b =>
    obtain ⟨t, ht, herrs, -⟩ := exec_push_errs_len hr (of_decide_eq_true h) (hg b rfl) b
    exact ⟨t, ht, herrs⟩
  | final => exact ⟨_, exec_final_of_absorb hr (of_decide_eq_true h), rfl⟩
  | rdhex idx => exact ⟨_, exec_rdhex_of_done hr (of_decide_eq_true h) idx, rfl⟩
  | clrerr => exact ⟨_, exec_clrerr_of_ready hr, rfl⟩

/-- Settles O7: the decoder's two errors come before the command runs, and the command's own two follow its legality. -/
theorem errorPriority : Obligations.ErrorPriority := by
  intro s w hr
  refine ⟨fun hill => acceptWord_of_illegal hr (decode_of_illegal hill),
    fun h6 hz => acceptWord_of_reserved hr (decode_of_reserved h6 hz), fun i hd hleg => ?seq,
    fun b hd hf hg hl => ?tooLarge, fun i hd hleg hg => ?noError⟩
  case seq => rw [acceptWord_of_decode hr hd, exec_of_not_legal hr hleg]
  case tooLarge => rw [acceptWord_of_decode hr hd, exec_push_of_guard hr hf hg hl]
  case noError =>
    rw [acceptWord_of_decode hr hd]
    exact exec_of_legal hr hleg hg

/-- Settles O26: BUSY holds the word; elsewhere the outcome is by legality, and a legal command fails only under the guard. -/
theorem legalityTable : Obligations.LegalityTable := by
  intro s hlive
  refine ⟨fun w rest hb => step_send_of_busy hlive hb rfl, fun i hb => exec_of_not_legal ⟨hlive, hb⟩,
    fun i hb hleg => ?legal, fun w hb => acceptWord_of_illegal ⟨hlive, hb⟩,
    fun w hb => acceptWord_of_reserved ⟨hlive, hb⟩⟩
  by_cases hfull : (∃ b, i = .push b) ∧ s.params.lenGuard = true ∧ s.len = lastLen
  · obtain ⟨⟨b, rfl⟩, hg, hl⟩ := hfull
    exact .inr ⟨b, rfl, hg, hl, exec_push_of_guard ⟨hlive, hb⟩ (of_decide_eq_true hleg) hg hl b⟩
  · refine .inl (exec_of_legal ⟨hlive, hb⟩ hleg fun b hpush => ?_)
    by_contra! hnot
    exact hfull ⟨⟨b, hpush⟩, by simpa using hnot⟩

/-! ## The error record -/

/-- What an edge does to the error record: nothing, the clearing by reset or CLRERR, or the recording of one cause
(60_exceptions.md R224, R226). -/
theorem edge_errs {s t : State} (h : Edge s t) :
    t.errs = s.errs ∨ (t.errs = ErrRec.clear ∧ (ResetEdge s ∨ Accepts s .clrerr)) ∨
      ∃ c, c ≠ .none ∧ t.errs = s.errs.raise c := by
  cases h with
  | reset hr => exact .inr (.inl ⟨rfl, .inl hr⟩)
  | clrerr ha => exact .inr (.inl ⟨rfl, .inr ha⟩)
  | error c _ hc => exact .inr (.inr ⟨c, hc, by simp⟩)
  | load | round | nextBlock | finish | nop | init | push | pushLast | final | rdhex | rest => left; simp

/-- Settles O25: the command's outcome is the record with the cause raised, which is told apart by ERR. -/
theorem raisingAnError : Obligations.RaisingAnError := by
  intro c s
  refine ⟨fun h => ?_, fun h => ?_⟩
  · rw [commandError, raiseError, ErrRec.raise_of_clear c h]
  · rw [commandError, raiseError, ErrRec.raise_of_set c h, h]

/-- Settles O27: of the three things an edge does to the record, recording a cause is the one that depends on ERR. -/
theorem errorRecordIsSticky : Obligations.ErrorRecordIsSticky := by
  intro s t hstep
  obtain hsame | hclear | ⟨c, hc, hraise⟩ := edge_errs (edge_of_step hstep)
  · exact ⟨fun _ => .inr (.inl hsame), fun _ => .inl hsame⟩
  · exact ⟨fun _ => .inl hclear, fun _ => .inr (.inl hclear)⟩
  · exact ⟨fun hset => .inr (.inr (hraise.trans (ErrRec.raise_of_set c hset))),
      fun hnone => .inr (.inr ⟨c, hc, hraise.trans (ErrRec.raise_of_clear c hnone)⟩)⟩

end Sys2Proof.Machine
end

section
/-! Proofs of the reset and hazards family: the commands a BUSY core holds, and the ports, the commands and the memory map before
the first reset (70_reset_and_hazards.md R251, R260, R261). -/

namespace Sys2Proof.Machine

/-! ## One step is one clock edge -/

theorem step_send {s : State} {w : Word} {rest : List HostAct} (hh : s.host = .send w :: rest) :
    step s = clockEdge (Pins.command w) (afterHeld rest s) := by
  simp [step, hostEdge, actRefusal, pinsAt, afterAct, hh]

theorem step_drive {s : State} {p : Pins} {rest : List HostAct} (hh : s.host = .drive p :: rest) :
    step s = clockEdge p { s with host := rest } := by
  simp [step, hostEdge, actRefusal, pinsAt, afterAct, hh]

/-- Every command runs under `accepting`, which answers in its place while BUSY and before the first reset. -/
theorem exists_exec_eq_accepting (i : Instr) (s : State) : ∃ o, exec i s = accepting s o := by
  cases i <;> exact ⟨_, rfl⟩

/-! ## A BUSY core -/

theorem exec_of_busy {s : State} (hlive : s.live = true) (hb : s.fsm = .busy) (i : Instr) : exec i s = .next s := by
  obtain ⟨o, ho⟩ := exists_exec_eq_accepting i s
  rw [ho, accepting_of_busy hlive hb]

/-- Settles O8: while BUSY the edge is the sequencer's step, and a command is held before its word is decoded. -/
theorem busyHoldsCommands : Obligations.BusyHoldsCommands := by
  intro s hlive hb
  refine ⟨fun w rest hh => step_send_of_busy hlive hb hh, fun v w rest hh => ?driven, exec_of_busy hlive hb,
    fun w => accepting_of_busy hlive hb⟩
  case driven =>
    rw [step_drive hh]
    exact clockEdge_of_busy rfl hlive hb

/-! ## A core before its first reset -/

section
variable {s : State} (hlive : s.live = false)
include hlive

theorem outputs_before_reset (rstN : Bool) : outputs rstN s = none := by simp [outputs, hlive]

theorem exec_before_reset (i : Instr) : exec i s = .refused .beforeReset := by
  obtain ⟨o, ho⟩ := exists_exec_eq_accepting i s
  rw [ho, accepting_before_reset hlive]

/-- Before the first reset FSM has no value, so the edge goes by the ports alone: a command is refused. -/
theorem clockEdge_command_before_reset (w : Word) : clockEdge (Pins.command w) s = .refused .beforeReset := by
  have haccept : acceptWord w s = .refused .beforeReset := accepting_before_reset hlive
  simp [clockEdge, Pins.command, hlive, haccept]

theorem clockEdge_idle_before_reset : clockEdge Pins.idle s = .next (restEdge s) := by
  simp [clockEdge, Pins.idle, hlive]

theorem afterHeld_before_reset (rest : List HostAct) : afterHeld rest s = s :=
  afterHeld_of_not_ready (fun hr => by simp [hr.1] at hlive) rest

end

/-- What the host reads at the offset of each register, whether or not the core has been reset (20_memory.md R58). -/
theorem exists_mapRead_of_mem_host {s : State} (hbase : s.params.coreBase % 4 = 0) {off : Nat} {x : Word}
    (h : (off, x) ∈ [(0, 0#32), (4, hostRsp s), (8, (hostStatus s).setWidth 32), (12, 0#32)]) :
    ∃ reg, mapAccess s (s.params.coreBase + off) 4 = .ok reg ∧ mapRead reg s = x := by
  simp only [List.mem_cons, List.not_mem_nil, or_false, Prod.mk.injEq] at h
  obtain ⟨rfl, rfl⟩ | ⟨rfl, rfl⟩ | ⟨rfl, rfl⟩ | ⟨rfl, rfl⟩ := h
  all_goals exact ⟨_, mapAccess_aligned hbase (by decide) (by decide), rfl⟩

/-- Settles O10: no port has a value, each way of presenting a command is refused, and the other accesses leave the edge at rest. -/
theorem beforeFirstReset : Obligations.BeforeFirstReset := by
  intro s hlive
  refine ⟨outputs_before_reset hlive, exec_before_reset hlive, ?send, ?drive, fun hbase => ⟨?writeCmd, ?read, ?write⟩⟩
  case send =>
    intro w rest hh
    rw [step_send hh, afterHeld_before_reset hlive, clockEdge_command_before_reset hlive]
  case drive =>
    intro w rest hh
    rw [step_drive hh]
    exact clockEdge_command_before_reset (s := { s with host := rest }) hlive w
  case writeCmd =>
    intro w rest hh
    rw [step_busWrite_of_cmd hh (mapAccess_cmd hbase), afterHeld_before_reset hlive, clockEdge_command_before_reset hlive]
  case read =>
    intro off x rest hh hmem
    rw [← hostRsp_before_reset hlive, ← hostStatus_before_reset hlive] at hmem
    obtain ⟨reg, hacc, rfl⟩ := exists_mapRead_of_mem_host hbase hmem
    rw [step_busRead_of_ok hh hacc, serveRead_before_reset hlive]
    exact clockEdge_idle_before_reset hlive
  case write =>
    intro off x rest hoff hh
    obtain ⟨reg, hacc, hreg⟩ := exists_mapAccess_ne_cmd hbase hoff
    rw [step_busWrite_of_ne_cmd hh hacc hreg]
    exact clockEdge_idle_before_reset hlive

end Sys2Proof.Machine
end
